-- ==== Sys2Proof/Word.lean ====
section
/-! DEFINITION. The widths the spec gives its data (00_scope.md R5, R7) and the channel numbers. -/

namespace Sys2Proof

/-- A byte: 8 bits, unsigned (00_scope.md R7). -/
abbrev Byte := BitVec 8

/-- 16 bits: the divisor (`BAUD_W`), the poll limit (`LIMIT_W`), the data of a response. -/
abbrev Half := BitVec 16

/-- 32 bits: the operand of the two numeric transmit operations (`UDEC_W`). -/
abbrev Word := BitVec 32

/-- A channel number, 0 to 3 (43_channel_mux.md R136; `NCHAN == 4`). -/
abbrev Chan := Fin 4

end Sys2Proof
end

