-- ==== Sys2Proof/Config.lean ====
section
/-! DEFINITION. The parameters of the block (00_scope.md R5) as plain data, and the free values: constants
without a body, of which no proof can see the value. -/

namespace Sys2Proof

/-- One value per channel. -/
structure PerChan (α : Type) where
  c0 : α
  c1 : α
  c2 : α
  c3 : α
  deriving DecidableEq, Repr

namespace PerChan

/-- The value of channel `c`. -/
def get {α : Type} (v : PerChan α) (c : Chan) : α :=
  match c with
  | 0 => v.c0
  | 1 => v.c1
  | 2 => v.c2
  | 3 => v.c3

/-- The family with the value of channel `c` replaced. -/
def set {α : Type} (v : PerChan α) (c : Chan) (x : α) : PerChan α :=
  match c with
  | 0 => { v with c0 := x }
  | 1 => { v with c1 := x }
  | 2 => { v with c2 := x }
  | 3 => { v with c3 := x }

/-- The family with `f` applied to the value of channel `c`. -/
def modify {α : Type} (v : PerChan α) (c : Chan) (f : α → α) : PerChan α :=
  match c with
  | 0 => { v with c0 := f v.c0 }
  | 1 => { v with c1 := f v.c1 }
  | 2 => { v with c2 := f v.c2 }
  | 3 => { v with c3 := f v.c3 }

/-- The family whose value at `c` is `f c`. -/
def tabulate {α : Type} (f : Chan → α) : PerChan α := ⟨f 0, f 1, f 2, f 3⟩

/-- The four values in channel order. -/
def toList {α : Type} (v : PerChan α) : List α := [v.c0, v.c1, v.c2, v.c3]

end PerChan

/-- The two peripheral families (43_channel_mux.md R136). -/
inductive Kind where
  | uart
  | usart
  deriving DecidableEq, Repr

/-- The two alternate pin-function groups (43_channel_mux.md R138). -/
inductive PinGroup where
  | g0
  | g1
  deriving DecidableEq, Repr

/-- DESC[c], the PeripheralDescriptor (43_channel_mux.md R137). -/
structure Descriptor where
  rxPin    : Nat
  txPin    : Nat
  pinctl   : Nat
  regbase  : Nat
  clockId  : Nat
  vector   : Nat
  altGroup : Bool
  deriving DecidableEq, Repr

/-- The position of a field of MODE and its encoding: for each value the field can hold, its code
(43_channel_mux.md R139). -/
structure FieldCode where
  pos   : Nat
  codes : List (Nat × Nat)
  deriving DecidableEq, Repr

/-- The two fields of MODE that set the frame, `MODE.CHRL` and `MODE.NBSTOP` (43_channel_mux.md R139). -/
structure FrameFields where
  chrl   : FieldCode
  nbstop : FieldCode
  deriving DecidableEq, Repr

/-- The width of a physical register access: 8, 16 or 32 bits (20_memory.md R42). -/
inductive AccessWidth where
  | w8
  | w16
  | w32
  deriving DecidableEq, Repr

/-- A width in bits. -/
def AccessWidth.bits : AccessWidth → Nat
  | .w8 => 8
  | .w16 => 16
  | .w32 => 32

/-- Where a layout places an abstract register: its offset from `regbase` (43_channel_mux.md R139) and the width it is
accessed with, which belongs to the layout too (20_memory.md R42). -/
structure RegSlot where
  off   : Nat
  width : AccessWidth
  deriving DecidableEq, Repr

/-- LAYOUT[k] (43_channel_mux.md R139, 20_memory.md R42): the offset and the access width of each abstract register, the
bit of each abstract field, the place and code of `PAR == none`, the one parity the spec names. The data fields of RHR,
THR and BRGR start at bit 0 in every layout. This is all of LAYOUT[UART], which has no frame fields. -/
structure Layout where
  ctrl : RegSlot
  mode : RegSlot
  ier  : RegSlot
  sr   : RegSlot
  rhr  : RegSlot
  thr  : RegSlot
  brgr : RegSlot
  rstrxBit : Nat
  rsttxBit : Nat
  rxenBit  : Nat
  txenBit  : Nat
  ierRxrdyBit : Nat
  srRxrdyBit  : Nat
  srTxrdyBit  : Nat
  parPos      : Nat
  parNoneCode : Nat
  deriving DecidableEq, Repr

/-- LAYOUT[USART]: it also has the two frame fields, "for `k == USART` only" (43_channel_mux.md R139). -/
structure UsartLayout extends Layout, FrameFields where
  deriving DecidableEq, Repr

/-- The OPEN parameters of 00_scope.md R5. The others are fixed by the spec and are no fields: NCHAN is `Chan`, KIND is
`Machine.kindOf`, PARITY is `Machine.modeOf`'s, BAUD_W, UDEC_W and LIMIT_W are the widths of `Instr`'s operands, TERMINATOR
stands below; USABLE is `n - 1` and IDXW is `Machine.idxWidth n`. -/
structure Config where
  n             : Nat
  desc          : PerChan Descriptor
  layoutUart    : Layout
  layoutUsart   : UsartLayout
  uartGroup     : PinGroup
  usartCharlen  : Nat
  usartStopbits : Nat
  deriving DecidableEq, Repr

/-- TERMINATOR (00_scope.md R5, 42_formatted_output.md R121). -/
def Config.terminator : Byte := 0x00

/-- The eight pins the descriptors name. -/
def Config.pinIds (k : Config) : List Nat :=
  k.desc.toList.flatMap fun d => [d.rxPin, d.txPin]

/-- What the spec requires of its parameters: the range of `N` (00_scope.md R5), distinct register blocks,
vectors and pins (20_memory.md R44, `P_distinct`), and exactly one USART channel on the alternate group
(43_channel_mux.md R138). -/
abbrev Config.Wf (k : Config) : Prop :=
  2 ≤ k.n ∧ k.n ≤ 65536 ∧
  (k.desc.toList.map Descriptor.regbase).Nodup ∧
  (k.desc.toList.map Descriptor.vector).Nodup ∧
  k.pinIds.Nodup ∧
  ([k.desc.c1, k.desc.c2, k.desc.c3].countP Descriptor.altGroup) = 1

/-- DESIGN CHOICE (log 2): the numbers of the default layout; the spec leaves every one OPEN. -/
def Layout.default : Layout where
  ctrl := ⟨0, .w32⟩
  mode := ⟨4, .w32⟩
  ier := ⟨8, .w32⟩
  sr := ⟨12, .w32⟩
  rhr := ⟨16, .w32⟩
  thr := ⟨20, .w32⟩
  brgr := ⟨24, .w32⟩
  rstrxBit := 0
  rsttxBit := 1
  rxenBit := 2
  txenBit := 3
  ierRxrdyBit := 0
  srRxrdyBit := 0
  srTxrdyBit := 1
  parPos := 0
  parNoneCode := 1

/-- DESIGN CHOICE (log 2): the default USART layout: the default numbers, and character lengths 5 to 8 and stop-bit counts
1 and 2 in two fields above PAR. -/
def UsartLayout.default : UsartLayout where
  toLayout := Layout.default
  chrl := ⟨2, [(5, 0), (6, 1), (7, 2), (8, 3)]⟩
  nbstop := ⟨4, [(1, 0), (2, 1)]⟩

/-- DESIGN CHOICE (log 2): the default descriptor of channel `c`; the spec leaves every field OPEN. -/
def Descriptor.default (c : Chan) : Descriptor where
  rxPin := 2 * c.val
  txPin := 2 * c.val + 1
  pinctl := 0
  regbase := 256 * (c.val + 1)
  clockId := c.val
  vector := c.val
  altGroup := c.val == 3

/-- The parameters at their defaults: N 255, character length 8, one stop bit (00_scope.md R5); the rest
DESIGN CHOICE (log 2). -/
def Config.default : Config where
  n := 255
  desc := PerChan.tabulate Descriptor.default
  layoutUart := Layout.default
  layoutUsart := UsartLayout.default
  uartGroup := .g0
  usartCharlen := 8
  usartStopbits := 1

/-- The `i`-th 16-bit `draw` (00_scope.md R8, 30_encoding.md R71): a free value (log 5). -/
opaque Config.freeData : Nat → Half

/-- The `i`-th byte `draw` (00_scope.md R8, 40_ringbuffer.md R81, 43_channel_mux.md R150): a free value (log 5). -/
opaque Config.freeByte : Nat → Byte

/-- The code of a value that the encoding of a MODE field does not list: a free value (log 25). -/
opaque Config.freeCode : Nat → Nat

/-- The code of a parity other than `none`, which the spec does not name: a free value (log 25). -/
opaque Config.freeParityCode : Nat

/-- The unspecified reset content of element `i` of channel `c`'s store (10_state.md R11): a free value (log 4). -/
opaque Config.storeByte : Chan → Nat → Byte

end Sys2Proof
end

