-- ==== Sys2Proof/Syntax.lean ====
section
/-! DEFINITION. The thirteen operations of the block (30_encoding.md R60), one constructor each. -/

namespace Sys2Proof

/-- The operations of 30_encoding.md R60. An RBP operation names the channel whose own RBP port it
is presented on, since that format carries no channel (R67). -/
inductive Instr where
  /-- CONFIGURE c, div (41_port_driver.md R101). -/
  | configure (c : Chan) (div : Half)
  /-- WRITE_BYTE c, b (41_port_driver.md R102). -/
  | writeByte (c : Chan) (b : Byte)
  /-- WRITE_TEXT c, text, the terminator not part of the text (42_formatted_output.md R121). -/
  | writeText (c : Chan) (text : List Byte)
  /-- WRITE_UDEC c, v (42_formatted_output.md R122). -/
  | writeUdec (c : Chan) (v : Word)
  /-- WRITE_HEX32 c, v (42_formatted_output.md R123). -/
  | writeHex32 (c : Chan) (v : Word)
  /-- READ_BYTE c (41_port_driver.md R105). -/
  | readByte (c : Chan)
  /-- PENDING_COUNT c (41_port_driver.md R106). -/
  | pendingCount (c : Chan)
  /-- WRITE_BYTE_BOUNDED c, b, limit (41_port_driver.md R103). -/
  | writeByteBounded (c : Chan) (b : Byte) (limit : Half)
  /-- RB.ENQUEUE b on port RBP of channel c (40_ringbuffer.md R80). -/
  | rbEnqueue (c : Chan) (b : Byte)
  /-- RB.DEQUEUE on port RBP of channel c (40_ringbuffer.md R81). -/
  | rbDequeue (c : Chan)
  /-- RB.COUNT on port RBP of channel c (40_ringbuffer.md R82). -/
  | rbCount (c : Chan)
  /-- PUSH_RECEIVED c, b on port PRX (41_port_driver.md R104). -/
  | pushReceived (c : Chan) (b : Byte)
  /-- RX_DISPATCH c, the interrupt event of channel c (60_exceptions.md R168). -/
  | rxDispatch (c : Chan)
  deriving DecidableEq, Repr

end Sys2Proof
end

