-- ==== Sys2Proof/Decode.lean ====
section
/-! DEFINITION. The four formats CMD, IRQ, PRX and RBP (30_encoding.md R61 to R67): the decoder, total on any input
and rejecting by name, the encoder, and the reading of a word numbered as spec/opcode_table.json numbers it. -/

namespace Sys2Proof

/-- What can stand on one of the four ports. -/
inductive Wire where
  /-- Bytes on the command port, the first presented first (30_encoding.md R61). -/
  | cmd (bytes : List Byte)
  /-- An interrupt event (30_encoding.md R66). -/
  | irq (w : BitVec 2)
  /-- A word on port PRX (30_encoding.md R67). -/
  | prx (w : BitVec 10)
  /-- A word on the RBP port of channel `c` (30_encoding.md R67). -/
  | rbp (c : Chan) (w : BitVec 10)
  deriving DecidableEq, Repr

/-- What a decoder answers. -/
inductive Decoded where
  /-- A complete operation, and the bytes after it. -/
  | ok (i : Instr) (rest : List Byte)
  /-- An illegal header: a command of length 1, and the bytes after it (30_encoding.md R65). -/
  | illegal (header : Byte) (rest : List Byte)
  /-- The bytes presented so far are no complete command (30_encoding.md R64). -/
  | incomplete
  /-- The RBP pattern `oo == 0b00` (30_encoding.md R65, R67). -/
  | noOperation
  deriving DecidableEq, Repr

/-- A two-bit channel field as a channel number; all four values are legal (30_encoding.md R61). -/
def chanOf (w : BitVec 2) : Chan := w.toFin

/-- A channel number as its two-bit field. -/
def bitsOfChan (c : Chan) : BitVec 2 := BitVec.ofFin c

/-! ### Operand assembly (30_encoding.md R62) -/

/-- `{byte2, byte1}`: a 16-bit operand, low byte first, and the bytes after it. -/
def readHalf : List Byte → Option (Half × List Byte)
  | b1 :: b2 :: rest => some (b2 ++ b1, rest)
  | _ => none

/-- `{byte4, byte3, byte2, byte1}`: a 32-bit operand, low byte first, and the bytes after it. -/
def readWord : List Byte → Option (Word × List Byte)
  | b1 :: b2 :: b3 :: b4 :: rest => some (b4 ++ b3 ++ b2 ++ b1, rest)
  | _ => none

/-- The text operand: the bytes up to the first TERMINATOR, and the bytes after that (30_encoding.md R64). -/
def readText : List Byte → Option (List Byte × List Byte)
  | [] => none
  | b :: rest =>
    if b = Config.terminator then some ([], rest)
    else match readText rest with
      | none => none
      | some (text, after) => some (b :: text, after)

/-! ### Format CMD (30_encoding.md R61, R63) -/

/-- The channel field of a header byte, bits 1:0. -/
def headerChan (h : Byte) : Chan := chanOf (h.extractLsb' 0 2)

/-- A command from what its operand reader gives; operands not all presented make it incomplete. -/
def complete {α : Type} (operand : Option (α × List Byte)) (f : α → Instr) : Decoded :=
  match operand with
  | none => .incomplete
  | some (x, rest) => .ok (f x) rest

/-- The byte and the limit of WRITE_BYTE_BOUNDED. -/
def readByteLimit : List Byte → Option ((Byte × Half) × List Byte)
  | [] => none
  | b :: rest => (readHalf rest).map fun (limit, after) => ((b, limit), after)

/-- One byte operand. -/
def readOne : List Byte → Option (Byte × List Byte)
  | [] => none
  | b :: rest => some (b, rest)

/-- The first command of the bytes presented on port CMD: a row is selected by `header & 0xFC == op << 4`
(30_encoding.md R63), any other header is illegal (R65). -/
def decodeCmd : List Byte → Decoded
  | [] => .incomplete
  | h :: rest =>
    let c := headerChan h
    let row := h &&& 0xFC#8
    if row = 0x10#8 then complete (readHalf rest) (.configure c)
    else if row = 0x20#8 then complete (readOne rest) (.writeByte c)
    else if row = 0x30#8 then complete (readText rest) (.writeText c)
    else if row = 0x40#8 then complete (readWord rest) (.writeUdec c)
    else if row = 0x50#8 then complete (readWord rest) (.writeHex32 c)
    else if row = 0x60#8 then .ok (.readByte c) rest
    else if row = 0x70#8 then .ok (.pendingCount c) rest
    else if row = 0x80#8 then complete (readByteLimit rest) (fun p => .writeByteBounded c p.1 p.2)
    else .illegal h rest

/-! ### Formats IRQ, PRX and RBP (30_encoding.md R66, R67) -/

/-- An RBP word: `oo` in bits 9:8; bits 7:0 are the byte of RB.ENQUEUE and are ignored otherwise. -/
def decodeRbp (c : Chan) (w : BitVec 10) : Decoded :=
  match (w.extractLsb' 8 2).toNat with
  | 0 => .noOperation
  | 1 => .ok (.rbEnqueue c (w.extractLsb' 0 8)) []
  | 2 => .ok (.rbDequeue c) []
  | _ => .ok (.rbCount c) []

/-- A PRX word: channel in bits 9:8, byte in bits 7:0. -/
def decodePrx (w : BitVec 10) : Instr :=
  .pushReceived (chanOf (w.extractLsb' 8 2)) (w.extractLsb' 0 8)

/-- An IRQ event: the channel index. -/
def decodeIrq (w : BitVec 2) : Instr := .rxDispatch (chanOf w)

/-- The decoder of all four ports. -/
def decode : Wire → Decoded
  | .cmd bytes => decodeCmd bytes
  | .irq w => .ok (decodeIrq w) []
  | .prx w => .ok (decodePrx w) []
  | .rbp c w => decodeRbp c w

/-! ### The encoder -/

/-- A header byte `{op, 0b00, ch}` (30_encoding.md R61). -/
def header (op : BitVec 4) (c : Chan) : Byte := op ++ (0b00#2 ++ bitsOfChan c)

/-- A 16-bit operand as bytes, low byte first. -/
def halfBytes (v : Half) : List Byte := [v.extractLsb' 0 8, v.extractLsb' 8 8]

/-- A 32-bit operand as bytes, low byte first. -/
def wordBytes (v : Word) : List Byte :=
  [v.extractLsb' 0 8, v.extractLsb' 8 8, v.extractLsb' 16 8, v.extractLsb' 24 8]

/-- The words of an operation on its port, from the opcode map of 30_encoding.md R63, R66 and R67; the ignored
bits of RB.DEQUEUE and RB.COUNT are encoded as zeros. -/
def encode : Instr → Wire
  | .configure c div => .cmd (header 0x1 c :: halfBytes div)
  | .writeByte c b => .cmd [header 0x2 c, b]
  | .writeText c text => .cmd (header 0x3 c :: (text ++ [Config.terminator]))
  | .writeUdec c v => .cmd (header 0x4 c :: wordBytes v)
  | .writeHex32 c v => .cmd (header 0x5 c :: wordBytes v)
  | .readByte c => .cmd [header 0x6 c]
  | .pendingCount c => .cmd [header 0x7 c]
  | .writeByteBounded c b limit => .cmd (header 0x8 c :: b :: halfBytes limit)
  | .rbEnqueue c b => .rbp c (0b01#2 ++ b)
  | .rbDequeue c => .rbp c (0b10#2 ++ 0#8)
  | .rbCount c => .rbp c (0b11#2 ++ 0#8)
  | .pushReceived c b => .prx (bitsOfChan c ++ b)
  | .rxDispatch c => .irq (bitsOfChan c)

/-! ### Words numbered as spec/opcode_table.json numbers them -/

/-- The lowest `k` bytes of `w`, the least significant first. -/
def lowBytes : Nat → Nat → List Byte
  | 0, _ => []
  | k + 1, w => BitVec.ofNat 8 w :: lowBytes k (w / 256)

/-- Whether a header byte selects a row of the opcode map (30_encoding.md R63, R65). -/
def legalHeader (h : Byte) : Bool :=
  match decodeCmd [h] with
  | .illegal _ _ => false
  | _ => true

/-- The bytes of the first command alone, where they hold a complete one. -/
def firstCommand (bytes : List Byte) : List Byte :=
  match decodeCmd bytes with
  | .ok _ rest => bytes.take (bytes.length - rest.length)
  | .illegal _ _ => bytes
  | .incomplete => bytes
  | .noOperation => bytes

/-- The port and the content a word of the table stands for (log 8): the table gives no format bits, so a word of at
most 16 bits goes to the port whose rows have words of that length and pattern, and RBP words go to channel 0.
DESIGN CHOICE (log 8): a word shorter than its command is completed with zero bytes, so 8 bits `0x10` are CONFIGURE 0, 0
and 8 bits `0x30` are WRITE_TEXT 0 with an empty text. The spec names no such completion, and on port CMD itself there is
none: `decodeCmd` calls the same bytes incomplete (30_encoding.md R64). -/
def tableWire (nbits w : Nat) : Wire :=
  let bytes := firstCommand (lowBytes (max 5 ((nbits + 7) / 8 + 1)) w)
  if nbits ≤ 8 then
    if w < 4 then .irq (BitVec.ofNat 2 w) else .cmd bytes
  else if nbits ≤ 16 then
    if w < 1024 && 256 ≤ w then .rbp 0 (BitVec.ofNat 10 w)
    else if w < 1024 && !legalHeader (BitVec.ofNat 8 w) then .prx (BitVec.ofNat 10 w)
    else .cmd bytes
  else .cmd bytes

/-- The instruction the decoder reads from a word numbered as the table numbers it, operand bytes the word does not hold
taken as zero (log 8). -/
def decodeTableWord (nbits w : Nat) : Option Instr :=
  match decode (tableWire nbits w) with
  | .ok i _ => some i
  | .illegal _ _ => none
  | .incomplete => none
  | .noOperation => none

end Sys2Proof
end

