-- ==== Sys2Proof/Machine/Cells.lean ====
section
/-! DEFINITION. Sparse storage by key, in one canonical form: a list of (key, value) pairs, keys rising. -/

namespace Sys2Proof
namespace Machine

/-- The value listed at key `a`. -/
def getCell {α : Type} (m : List (Nat × α)) (a : Nat) : Option α :=
  match m with
  | [] => none
  | (k, v) :: m => if a = k then some v else getCell m a

/-- The list with the value at `a` set to `v`. -/
def setCell {α : Type} (m : List (Nat × α)) (a : Nat) (v : α) : List (Nat × α) :=
  match m with
  | [] => [(a, v)]
  | (k, w) :: m =>
    if a < k then (a, v) :: (k, w) :: m
    else if a = k then (a, v) :: m
    else (k, w) :: setCell m a v

/-- The rising list of keys with `a` added. -/
def addKey (l : List Nat) (a : Nat) : List Nat :=
  match l with
  | [] => [a]
  | k :: l =>
    if a < k then a :: k :: l
    else if a = k then k :: l
    else k :: addKey l a

/-- The canonical form: the keys rise strictly. -/
abbrev keysRise {α : Type} (m : List (Nat × α)) : Prop := (m.map Prod.fst).Pairwise (· < ·)

/-- The canonical form of a store. An unlisted element has no value (log 4), so no entry can equal what an unlisted
element reads as. -/
abbrev Memory.wf (m : List Host.Cell) : Prop := keysRise m

end Machine
end Sys2Proof
end

