-- ==== Sys2Proof/Machine/State.lean ====
section
/-! DEFINITION. The state of the machine (10_state.md R10), as plain data, and the state after reset (R33). -/

namespace Sys2Proof
namespace Machine

/-- The backing storage of one ring buffer, a sparse list of (index, byte), indices rising; an element that no
RB.ENQUEUE has written is not listed (log 4). -/
abbrev Memory := List Host.Cell

/-- One ring buffer (10_state.md R11 to R14). The three index registers are held as numbers (log 15); their IDXW bits are
`Rb.headBits`, `Rb.tailBits` and `Rb.countBits`. -/
structure Rb where
  store : Memory
  head  : Nat
  tail  : Nat
  count : Nat
  deriving DecidableEq, Repr

/-- `st[c]` (10_state.md R18). -/
inductive ChanState where
  | uninitialized
  | configured
  | running
  deriving DecidableEq, Repr

/-- Parity. The block writes `none` only (00_scope.md R5); `other` is what a peripheral may hold before
CONFIGURE. -/
inductive Parity where
  | none
  | other
  deriving DecidableEq, Repr

/-- `p[c].mode` (10_state.md R21, 43_channel_mux.md R144): the last two absent for UART. -/
structure Mode where
  parity   : Parity
  charlen  : Option Nat
  stopbits : Option Nat
  deriving DecidableEq, Repr

/-- The state the serial peripheral presents to the block, `p[c]` (10_state.md R21, R24). -/
structure Periph where
  rxEn     : Bool
  txEn     : Bool
  rxrdy    : Bool
  txrdy    : Bool
  rhr      : Byte
  ierRxrdy : Bool
  brgr     : Half
  mode     : Mode
  deriving DecidableEq, Repr

/-- `pin[q].owner` (10_state.md R22). -/
inductive Owner where
  | gpio
  | periph
  deriving DecidableEq, Repr

/-- `pin[q]` (10_state.md R22). -/
structure Pin where
  owner  : Owner
  group  : PinGroup
  pullup : Bool
  deriving DecidableEq, Repr

/-- The last result on a channel's RBP port, a field of the model's own (log 12). -/
inductive RbResult where
  /-- No result given since reset. -/
  | silent
  /-- RB.DEQUEUE found a byte. -/
  | ok (v : Byte)
  /-- RB.DEQUEUE found the buffer empty; the byte is a `draw`. -/
  | empty (v : Byte)
  /-- RB.COUNT. -/
  | count (n : Nat)
  deriving DecidableEq, Repr

/-- Everything the machine holds for one channel. -/
structure Channel where
  rb    : Rb
  st    : ChanState
  baud  : Half
  per   : Periph
  /-- `line[c]`: the bytes written to THR since reset, oldest first (10_state.md R31). -/
  line  : List Byte
  rbOut : RbResult
  deriving DecidableEq, Repr

/-- `fg`, the foreground's in-flight operation (10_state.md R30); the list of bytes to send is not empty. -/
inductive Fg where
  | idle
  /-- `Sending(c, b :: rest)`. -/
  | sending (c : Chan) (b : Byte) (rest : List Byte)
  /-- `Polling(c, b, left)`. -/
  | polling (c : Chan) (b : Byte) (left : Half)
  deriving DecidableEq, Repr

/-- The six status codes (60_exceptions.md R160; 93_implementation_defined.md U18). -/
inductive Status where
  | ok
  | emptyQueue
  | notConfigured
  | alreadyConfigured
  | illegalCommand
  | txTimeout
  deriving DecidableEq, Repr

/-- A response (30_encoding.md R71). -/
structure Response where
  status : Status
  data   : Half
  deriving DecidableEq, Repr

/-- The seven abstract registers of a peripheral (10_state.md R25). -/
inductive Reg where
  | ctrl
  | mode
  | ier
  | sr
  | rhr
  | thr
  | brgr
  deriving DecidableEq, Repr

/-- A value written to one of the five written registers, field by field (10_state.md R25). -/
inductive RegVal where
  | ctrl (rstrx rsttx rxen txen : Bool)
  | mode (m : Mode)
  | ier (rxrdy : Bool)
  | thr (txchr : Byte)
  | brgr (cd : Half)
  deriving DecidableEq, Repr

/-- One access of the block to a collaborator, an entry of `extlog` (10_state.md R31). A read holds the value it
returned (log 14); a pin operation also names the pin controller. -/
inductive Access where
  | regWrite (c : Chan) (v : RegVal)
  | readSr (c : Chan) (rxrdy txrdy : Bool)
  | readRhr (c : Chan) (rxchr : Byte)
  | pinRelease (pinctl pin : Nat)
  | pinGroup (pinctl pin : Nat) (g : PinGroup)
  | pinPullup (pinctl pin : Nat)
  | intcEnable (vector : Nat)
  deriving DecidableEq, Repr

/-- One entry of the schedule (log 6): whose step is tried next (60_exceptions.md R183), or what the outside does
(70_reset_and_hazards.md R203). -/
inductive Event where
  /-- The foreground: issue a command, take a transmit step, or take a poll step. -/
  | fg
  /-- The interrupt controller presents an event on port IRQ. -/
  | irq (w : BitVec 2)
  /-- `ENV[c]`: byte arrival (43_channel_mux.md R147). -/
  | arrive (c : Chan) (b : Byte)
  /-- `ENV[c]`: transmit-ready (43_channel_mux.md R148). -/
  | txReady (c : Chan)
  /-- The foreground caller presents bytes on port CMD. -/
  | present (bytes : List Byte)
  /-- A harness presents a word on port PRX. -/
  | prx (w : BitVec 10)
  /-- A harness presents a word on the RBP port of channel `c`. -/
  | rbp (c : Chan) (w : BitVec 10)
  deriving DecidableEq, Repr

/-- The machine's state. `cfg` is never written (log 1); `responses`, `port`, `sched`, `draws` and each channel's
`rbOut` are the model's own fields (logs 13, 7, 6, 5, 12). -/
structure State where
  cfg       : Config
  ch        : PerChan Channel
  fg        : Fg
  resp      : Response
  /-- `pin[q]`, keyed by pin id, ids rising. -/
  pins      : List (Nat × Pin)
  /-- The vectors `v` with `intc.enabled[v]`, rising (10_state.md R23). -/
  intc      : List Nat
  extlog    : List Access
  /-- Every response since reset, oldest first. -/
  responses : List Response
  /-- The bytes presented on port CMD and not yet consumed. -/
  port      : List Byte
  /-- The events still to be tried, the next first. -/
  sched     : List Event
  /-- How many free values have been drawn. -/
  draws     : Nat
  deriving DecidableEq, Repr

/-- What stops the machine. Neither the block nor its spec has such a thing: a fault of the spec is a response. -/
inductive Fault where
  /-- An access of RB[c] at an index `i` outside `0 .. N-1`, an address the space does not have (20_memory.md
  R40, R52). Raised by RB.ENQUEUE and RB.DEQUEUE and by what delegates to them, in no state that satisfies
  10_state.md R15. Safe. -/
  | storeOutside (c : Chan) (i : Nat)
  deriving DecidableEq, Repr

/-- What the machine gives no meaning to. -/
inductive Refusal where
  /-- An operation without a meaning in this model; raised by no arm of exec. Safe. -/
  | notModelled (mnemonic : String)
  deriving DecidableEq, Repr

/-- The outcome of a step. -/
abbrev Result := Host.Outcome State Fault Refusal

/-- What one channel holds at reset where the spec says "unspecified" (10_state.md R33), the two pins of its
descriptor included. -/
structure PowerOn where
  baud  : Half
  rxEn  : Bool
  txEn  : Bool
  rxrdy : Bool
  txrdy : Bool
  rhr   : Byte
  brgr  : Half
  mode  : Mode
  rxPin : Pin
  txPin : Pin
  deriving DecidableEq, Repr

/-- DESIGN CHOICE (log 16): what a pin that no descriptor names reads as; no operation of the block reaches one. -/
def Pin.unlisted : Pin := ⟨.gpio, .g0, false⟩

/-- DESIGN CHOICE (log 3): the values named for the unspecified elements. -/
def PowerOn.default : PowerOn where
  baud := 0
  rxEn := false
  txEn := false
  rxrdy := false
  txrdy := false
  rhr := 0
  brgr := 0
  mode := ⟨.none, none, none⟩
  rxPin := ⟨.gpio, .g0, false⟩
  txPin := ⟨.gpio, .g0, false⟩

/-- The ring buffer after reset (10_state.md R11 to R14). -/
def Rb.reset (n : Nat) : Rb := ⟨[], 0, n - 1, 0⟩

/-- The peripheral after reset: the receive interrupt disabled, the rest unspecified (10_state.md R33). -/
def Periph.reset (u : PowerOn) : Periph where
  rxEn := u.rxEn
  txEn := u.txEn
  rxrdy := u.rxrdy
  txrdy := u.txrdy
  rhr := u.rhr
  ierRxrdy := false
  brgr := u.brgr
  mode := u.mode

/-- One channel after reset (10_state.md R33). -/
def Channel.reset (n : Nat) (u : PowerOn) : Channel where
  rb := Rb.reset n
  st := .uninitialized
  baud := u.baud
  per := Periph.reset u
  line := []
  rbOut := .silent

/-- The eight pins after reset, each at its power-on value. -/
def pinsReset (k : Config) (u : PerChan PowerOn) : List (Nat × Pin) :=
  [(0 : Chan), 1, 2, 3].foldl
    (fun m c => setCell (setCell m (k.desc.get c).rxPin (u.get c).rxPin) (k.desc.get c).txPin (u.get c).txPin) []

/-- The reset state of 10_state.md R33 for the parameters `k`, the unspecified elements at the values `u`. -/
def State.resetWith (k : Config) (u : PerChan PowerOn) : State where
  cfg := k
  ch := PerChan.tabulate fun c => Channel.reset k.n (u.get c)
  fg := .idle
  resp := ⟨.ok, 0⟩
  pins := pinsReset k u
  intc := []
  extlog := []
  responses := []
  port := []
  sched := []
  draws := 0

/-- The machine right after reset: the parameters at their defaults (log 2), the unspecified elements at the values
of log 3, nothing presented and nothing scheduled. -/
def State.reset : State := State.resetWith Config.default (PerChan.tabulate fun _ => PowerOn.default)

/-- The state of channel `c`. -/
def State.chan (s : State) (c : Chan) : Channel := s.ch.get c

/-- The state with `f` applied to the state of channel `c`. -/
def State.modChan (s : State) (c : Chan) (f : Channel → Channel) : State := { s with ch := s.ch.modify c f }

end Machine
end Sys2Proof
end

