-- ==== Sys2Proof/Machine/Operands.lean ====
section
/-! DEFINITION. The byte lists the transmit operations send (42_formatted_output.md R120 to R125), and the width
IDXW of the index registers. The assembly of operands from command bytes (30_encoding.md R62) is in Decode.lean. -/

namespace Sys2Proof
namespace Machine

/-- `digit(d)`: the ASCII character of a digit value 0 to 15 (42_formatted_output.md R124). -/
def digit (d : Nat) : Byte := if d ≤ 9 then BitVec.ofNat 8 (0x30 + d) else BitVec.ofNat 8 (0x37 + d)

/-- The least `n` in `start .. start + fuel` with `v < base ^ n`, `start + fuel` where there is none below it. -/
def leastDigits (base v fuel start : Nat) : Nat :=
  match fuel with
  | 0 => start
  | fuel + 1 => if v < base ^ start then start else leastDigits base v fuel (start + 1)

/-- The number of decimal digits of a 32-bit value: the least `n >= 1` with `v < 10 ^ n`, 1 to 10
(42_formatted_output.md R122). -/
def digitCount (v : Nat) : Nat := leastDigits 10 v 9 1

/-- IDXW, the width of `head`, `tail` and `count`: the least `w >= 1` with `2 ^ w >= N`, which is `N - 1 < 2 ^ w`; 1 to 16
over the legal range of `N` (00_scope.md R5). -/
def idxWidth (n : Nat) : Nat := leastDigits 2 (n - 1) 15 1

/-- `head` as the IDXW bits it has (10_state.md R12). -/
def Rb.headBits (n : Nat) (rb : Rb) : BitVec (idxWidth n) := BitVec.ofNat _ rb.head

/-- `tail` as the IDXW bits it has (10_state.md R13). -/
def Rb.tailBits (n : Nat) (rb : Rb) : BitVec (idxWidth n) := BitVec.ofNat _ rb.tail

/-- `count` as the IDXW bits it has (10_state.md R14). -/
def Rb.countBits (n : Nat) (rb : Rb) : BitVec (idxWidth n) := BitVec.ofNat _ rb.count

/-- The bytes of WRITE_UDEC, most significant digit first (42_formatted_output.md R122). -/
def udecBytes (v : Word) : List Byte :=
  if v.toNat = 0 then [0x30]
  else
    let n := digitCount v.toNat
    (List.range n).map fun i => digit ((v.toNat / 10 ^ (n - 1 - i)) % 10)

/-- The bytes of WRITE_HEX32: `digit(v[31-4*i : 28-4*i])` for `i = 0 .. 7` (42_formatted_output.md R123). -/
def hexBytes (v : Word) : List Byte :=
  (List.range 8).map fun i => digit (v.extractLsb' (28 - 4 * i) 4).toNat

/-- The bytes of WRITE_TEXT: the text, the terminator not sent (42_formatted_output.md R121). -/
def textBytes (text : List Byte) : List Byte := text

end Machine
end Sys2Proof
end

