-- ==== Sys2Proof/Machine/Flags.lean ====
section
/-! DEFINITION. The status flags, the predicates derived from them and the numeric codes of the status types
(10_state.md R16, R18, R24; 60_exceptions.md R160, R167). The block has no condition codes. -/

namespace Sys2Proof
namespace Machine

/-- `empty(c)` (10_state.md R16). -/
def isEmpty (c : Chan) (s : State) : Bool := (s.chan c).rb.count == 0

/-- `full(c)` (10_state.md R16). -/
def isFull (c : Chan) (s : State) : Bool := (s.chan c).rb.count == s.cfg.n - 1

/-- `TXRDY` of channel `c` (10_state.md R24). -/
def txReadyFlag (c : Chan) (s : State) : Bool := (s.chan c).per.txrdy

/-- `intc.enabled[v]` (10_state.md R23). -/
def intcEnabled (v : Nat) (s : State) : Bool := s.intc.contains v

/-- The receive interrupt of channel `c` is pending, which is when RX_DISPATCH c is enabled as a step
(60_exceptions.md R167): a condition, not a stored bit (10_state.md R28). -/
def rxPending (c : Chan) (s : State) : Bool :=
  (s.chan c).per.ierRxrdy && intcEnabled (s.cfg.desc.get c).vector s && (s.chan c).per.rxrdy

/-- The 4-bit code of a status (60_exceptions.md R160). -/
def statusCode : Status → BitVec 4
  | .ok => 0x0
  | .emptyQueue => 0x1
  | .notConfigured => 0x2
  | .alreadyConfigured => 0x3
  | .illegalCommand => 0x4
  | .txTimeout => 0x5

/-- The 2-bit code of a channel state (10_state.md R18). -/
def stateCode : ChanState → BitVec 2
  | .uninitialized => 0
  | .configured => 1
  | .running => 2

end Machine
end Sys2Proof
end

