-- ==== Sys2Proof/Machine/Ops.lean ====
section
/-! DEFINITION. The named operations every meaning is built from: responses and faults (60_exceptions.md R160), the
storage of a ring buffer (00_scope.md R8, 20_memory.md R52), the accesses to the three collaborators
(43_channel_mux.md R143 to R152), each of which appends itself to `extlog` (10_state.md R31). -/

namespace Sys2Proof
namespace Machine

/-! ### The channel and its parameters -/

/-- KIND[c]: channel 0 is the UART, the others USARTs (43_channel_mux.md R136). -/
def kindOf (c : Chan) : Kind := if c = 0 then .uart else .usart

/-- DESC[c]. -/
def descOf (c : Chan) (s : State) : Descriptor := s.cfg.desc.get c

/-- The pin group `g` of channel `c` (43_channel_mux.md R138). -/
def groupOf (k : Config) (c : Chan) : PinGroup :=
  match kindOf c with
  | .uart => k.uartGroup
  | .usart => if (k.desc.get c).altGroup then .g1 else .g0

/-- The effect of `modeword(KIND[c])`: parity none, and for a USART the configured character length and stop-bit
count (43_channel_mux.md R141, R142, R144). -/
def modeOf (k : Config) (c : Chan) : Mode :=
  match kindOf c with
  | .uart => ⟨.none, none, none⟩
  | .usart => ⟨.none, some k.usartCharlen, some k.usartStopbits⟩

/-- The state with the ring buffer of channel `c` replaced. -/
def setRb (c : Chan) (rb : Rb) (s : State) : State := s.modChan c fun x => { x with rb := rb }

/-- The state with `f` applied to the peripheral state of channel `c`. -/
def modPer (c : Chan) (f : Periph → Periph) (s : State) : State := s.modChan c fun y => { y with per := f y.per }

/-- `st[c] <- x`. -/
def setSt (c : Chan) (x : ChanState) (s : State) : State := s.modChan c fun y => { y with st := x }

/-- `baud[c] <- d`. -/
def setBaud (c : Chan) (d : Half) (s : State) : State := s.modChan c fun y => { y with baud := d }

/-- The last result on the RBP port of channel `c` (log 12). -/
def setRbOut (c : Chan) (r : RbResult) (s : State) : State := s.modChan c fun y => { y with rbOut := r }

/-! ### Responses and faults -/

/-- `respond(status, data)`: present a response and return the foreground to idle (00_scope.md R8, 30_encoding.md
R71). -/
def respond (status : Status) (data : Half) (s : State) : State :=
  { s with resp := ⟨status, data⟩, responses := s.responses ++ [⟨status, data⟩], fg := .idle }

/-- `raise`: a fault ends the command with its status and data 0 (60_exceptions.md R160, 30_encoding.md R71). -/
def raise (status : Status) (s : State) : State := respond status 0 s

/-- `raise EmptyQueue(draw)`: the data is a free value (60_exceptions.md R162, log 5). -/
def raiseEmptyQueue (s : State) : State :=
  respond .emptyQueue (Config.freeData s.draws) { s with draws := s.draws + 1 }

/-- A command is accepted only when `fg == Idle` (10_state.md R30); otherwise nothing changes (log 9). -/
def accept (s : State) (k : State → Result) : Result :=
  match s.fg with
  | .idle => k s
  | .sending _ _ _ => .next s
  | .polling _ _ _ => .next s

/-- The common precondition of every command but CONFIGURE (41_port_driver.md R100). -/
def whenRunning (c : Chan) (s : State) (k : State → Result) : Result :=
  accept s fun s =>
    match (s.chan c).st with
    | .running => k s
    | .uninitialized => .next (raise .notConfigured s)
    | .configured => .next (raise .notConfigured s)

/-! ### The storage of a ring buffer -/

/-- `nxt(i) = (i + 1) mod N` (40_ringbuffer.md, 20_memory.md R52). -/
def nxt (n i : Nat) : Nat := (i + 1) % n

/-- `MemRead(RB[c], i, 1)`: none where the space has no index `i`; an element that nothing has written reads as a
free byte (10_state.md R11, log 4). -/
def memRead (c : Chan) (n : Nat) (m : Memory) (i : Nat) : Option Byte :=
  if i < n then some ((getCell m i).getD (Config.storeByte c i)) else none

/-- `MemWrite(RB[c], i, 1, v)`: none where the space has no index `i`. -/
def memWrite (n : Nat) (m : Memory) (i : Nat) (v : Byte) : Option Memory :=
  if i < n then some (setCell m i v) else none

/-! ### The serial peripheral -/

/-- Append an access to `extlog`. -/
def logAccess (a : Access) (s : State) : State := { s with extlog := s.extlog ++ [a] }

/-- What a write does to the peripheral (43_channel_mux.md R143, R144, R149). -/
def writeEffect (v : RegVal) (p : Periph) : Periph :=
  match v with
  | .ctrl rstrx rsttx rxen txen =>
    let p := if rstrx then { p with rxEn := false, rxrdy := false } else p
    let p := if rsttx then { p with txEn := false, txrdy := false } else p
    let p := if rxen then { p with rxEn := true } else p
    if txen then { p with txEn := true } else p
  | .mode m => { p with mode := m }
  | .ier rxrdy => if rxrdy then { p with ierRxrdy := true } else p
  | .thr _ => { p with txrdy := false }
  | .brgr cd => { p with brgr := cd }

/-- The bytes a write adds to `line[c]`: the one written to THR (43_channel_mux.md R149). -/
def lineGain : RegVal → List Byte
  | .thr b => [b]
  | .ctrl _ _ _ _ => []
  | .mode _ => []
  | .ier _ => []
  | .brgr _ => []

/-- `RegWrite(c, REG, v)`. -/
def regWrite (c : Chan) (v : RegVal) (s : State) : State :=
  logAccess (.regWrite c v)
    (s.modChan c fun y => { y with per := writeEffect v y.per, line := y.line ++ lineGain v })

/-- `Tx(c, b)`: `RegWrite(c, THR, b)` (00_scope.md R8). -/
def tx (c : Chan) (b : Byte) (s : State) : State := regWrite c (.thr b) s

/-- `RegRead(c, SR)`, as the state after it: it changes neither flag (43_channel_mux.md R150). The value read is
the pair of flags the log entry holds. -/
def readSr (c : Chan) (s : State) : State :=
  logAccess (.readSr c (s.chan c).per.rxrdy (s.chan c).per.txrdy) s

/-- The byte `RegRead(c, RHR)` returns: the pending byte, or a `draw` where none is pending
(43_channel_mux.md R150, log 20). -/
def rhrValue (c : Chan) (s : State) : Byte :=
  if (s.chan c).per.rxrdy then (s.chan c).per.rhr else Config.freeByte s.draws

/-- `RegRead(c, RHR)`, as the state after it: it clears RXRDY (43_channel_mux.md R150). -/
def readRhr (c : Chan) (s : State) : State :=
  logAccess (.readRhr c (rhrValue c s))
    { modPer c (fun p => { p with rxrdy := false }) s with
      draws := if (s.chan c).per.rxrdy then s.draws else s.draws + 1 }

/-! ### The pin controller and the interrupt controller (43_channel_mux.md R151, R152) -/

/-- `pin[q]`. -/
def pinGet (q : Nat) (s : State) : Pin := (getCell s.pins q).getD Pin.unlisted

/-- The state with `f` applied to `pin[q]`. -/
def modPin (q : Nat) (f : Pin → Pin) (s : State) : State := { s with pins := setCell s.pins q (f (pinGet q s)) }

/-- `PinRelease(q)` on the pin controller of channel `c`. -/
def pinRelease (c : Chan) (q : Nat) (s : State) : State :=
  logAccess (.pinRelease (descOf c s).pinctl q) (modPin q (fun x => { x with owner := .periph }) s)

/-- `PinGroup(q, g)` on the pin controller of channel `c`. -/
def pinGroup (c : Chan) (q : Nat) (g : PinGroup) (s : State) : State :=
  logAccess (.pinGroup (descOf c s).pinctl q g) (modPin q (fun x => { x with group := g }) s)

/-- `PinPullup(q)` on the pin controller of channel `c`. -/
def pinPullup (c : Chan) (q : Nat) (s : State) : State :=
  logAccess (.pinPullup (descOf c s).pinctl q) (modPin q (fun x => { x with pullup := true }) s)

/-- `IntcEnable(v)`. -/
def intcEnable (v : Nat) (s : State) : State :=
  logAccess (.intcEnable v) { s with intc := addKey s.intc v }

end Machine
end Sys2Proof
end

