-- ==== Sys2Proof/Machine/Transmit.lean ====
section
/-! DEFINITION. The transmit serializer: how a transmit operation starts (42_formatted_output.md R120), its transmit
step (41_port_driver.md R109) and the poll step of the bounded variant (R110). -/

namespace Sys2Proof
namespace Machine

/-- Start sending the bytes `L`: an empty list responds at once (42_formatted_output.md R120). -/
def startSending (c : Chan) (L : List Byte) (s : State) : State :=
  match L with
  | [] => respond .ok 0 s
  | b :: rest => { s with fg := .sending c b rest }

/-- The transmit step, `fg == Sending(c, b :: rest)` (41_port_driver.md R109). While TXRDY is clear the foreground
holds: nothing changes and the poll is not logged. -/
def transmitStep (c : Chan) (b : Byte) (rest : List Byte) (s : State) : State :=
  if txReadyFlag c s then startSending c rest (tx c b (readSr c s)) else s

/-- The poll step, `fg == Polling(c, b, left)` (41_port_driver.md R110). -/
def pollStep (c : Chan) (b : Byte) (left : Half) (s : State) : State :=
  if left = 0 then raise .txTimeout s
  else if txReadyFlag c s then respond .ok 0 (tx c b (readSr c s))
  else { readSr c s with fg := .polling c b (left - 1) }

end Machine
end Sys2Proof
end

