-- ==== Sys2Proof/Machine/FormattedOutput.lean ====
section
/-! DEFINITION. The formatted output family (42_formatted_output.md R120 to R123): each operation computes its byte list
once, when it is issued, and sends it through the transmit step. -/

namespace Sys2Proof
namespace Machine

/-- WRITE_TEXT c, text (42_formatted_output.md R121). -/
def execWriteText (c : Chan) (text : List Byte) (s : State) : Result :=
  whenRunning c s fun s => .next (startSending c (textBytes text) s)

/-- WRITE_UDEC c, v (42_formatted_output.md R122). -/
def execWriteUdec (c : Chan) (v : Word) (s : State) : Result :=
  whenRunning c s fun s => .next (startSending c (udecBytes v) s)

/-- WRITE_HEX32 c, v (42_formatted_output.md R123). -/
def execWriteHex32 (c : Chan) (v : Word) (s : State) : Result :=
  whenRunning c s fun s => .next (startSending c (hexBytes v) s)

end Machine
end Sys2Proof
end

