-- ==== Sys2Proof/Machine/RingBuffer.lean ====
section
/-! DEFINITION. The ring buffer family (40_ringbuffer.md R80 to R82): the three operations on one buffer, and their
meanings on the RBP port of a channel. -/

namespace Sys2Proof
namespace Machine

/-- The buffer after RB.ENQUEUE b (40_ringbuffer.md R80); none where the index is outside the store. -/
def enqueue (n : Nat) (b : Byte) (rb : Rb) : Option Rb :=
  let t := nxt n rb.tail
  match memWrite n rb.store t b with
  | none => none
  | some m =>
    some (if rb.count = n - 1 then { store := m, head := nxt n rb.head, tail := t, count := rb.count }
          else { store := m, head := rb.head, tail := t, count := rb.count + 1 })

/-- RB.ENQUEUE b on `rb[c]` (40_ringbuffer.md R80), shared by the RBP port and PUSH_RECEIVED. -/
def enqueueOn (c : Chan) (b : Byte) (s : State) : Result :=
  match enqueue s.cfg.n b (s.chan c).rb with
  | none => .fault (.storeOutside c (nxt s.cfg.n (s.chan c).rb.tail))
  | some rb => .next (setRb c rb s)

/-- The byte and the buffer of RB.DEQUEUE on a buffer that is not empty (40_ringbuffer.md R81); none where `head` is
outside the store. -/
def dequeue (c : Chan) (n : Nat) (rb : Rb) : Option (Byte × Rb) :=
  match memRead c n rb.store rb.head with
  | none => none
  | some v => some (v, { rb with head := nxt n rb.head, count := rb.count - 1 })

/-- RB.DEQUEUE on `rb[c]` (40_ringbuffer.md R81), shared by the RBP port and READ_BYTE: what the caller does with the
`empty` indication, and what it does with a byte in the state after the dequeue. -/
def dequeueOn (c : Chan) (s : State) (onEmpty : State → State) (onByte : Byte → State → State) : Result :=
  if (s.chan c).rb.count = 0 then .next (onEmpty s)
  else match dequeue c s.cfg.n (s.chan c).rb with
    | none => .fault (.storeOutside c (s.chan c).rb.head)
    | some (v, rb) => .next (onByte v (setRb c rb s))

/-- RB.COUNT on `rb[c]` (40_ringbuffer.md R82), shared by the RBP port and PENDING_COUNT. -/
def countOf (c : Chan) (s : State) : Nat := (s.chan c).rb.count

/-- RB.ENQUEUE b on the RBP port of channel `c` (40_ringbuffer.md R80). -/
def execRbEnqueue (c : Chan) (b : Byte) (s : State) : Result := enqueueOn c b s

/-- RB.DEQUEUE on the RBP port of channel `c` (40_ringbuffer.md R81): the byte of the `empty` indication is a `draw`. -/
def execRbDequeue (c : Chan) (s : State) : Result :=
  dequeueOn c s
    (fun s => setRbOut c (.empty (Config.freeByte s.draws)) { s with draws := s.draws + 1 })
    (fun v s => setRbOut c (.ok v) s)

/-- RB.COUNT on the RBP port of channel `c` (40_ringbuffer.md R82). -/
def execRbCount (c : Chan) (s : State) : Result := .next (setRbOut c (.count (countOf c s)) s)

end Machine
end Sys2Proof
end

