-- ==== Sys2Proof/Machine/PortDriver.lean ====
section
/-! DEFINITION. The PortDriver family (41_port_driver.md R100 to R110). -/

namespace Sys2Proof
namespace Machine

/-- Steps S1 to S8 of CONFIGURE on channel `c`, in the order of 41_port_driver.md R101, the receive pin before the
transmit pin. -/
def configureSteps (c : Chan) (div : Half) (s : State) : State :=
  let d := descOf c s
  let g := groupOf s.cfg c
  let s := pinRelease c d.txPin (pinRelease c d.rxPin s)                                  -- S1
  let s := regWrite c (.ctrl true true false false) s                                     -- S2
  let s := pinGroup c d.txPin g (pinGroup c d.rxPin g s)                                  -- S3
  let s := pinPullup c d.txPin (pinPullup c d.rxPin s)                                    -- S4
  let s := setBaud c div (regWrite c (.brgr div) (regWrite c (.mode (modeOf s.cfg c)) s)) -- S5
  let s := regWrite c (.ier true) s                                                       -- S6
  let s := setSt c .configured (intcEnable d.vector s)                                    -- S7
  setSt c .running (regWrite c (.ctrl false false true true) s)                           -- S8

/-- CONFIGURE c, div (41_port_driver.md R101). -/
def execConfigure (c : Chan) (div : Half) (s : State) : Result :=
  accept s fun s =>
    match (s.chan c).st with
    | .uninitialized => .next (respond .ok 0 (configureSteps c div s))
    | .configured => .next (raise .alreadyConfigured s)
    | .running => .next (raise .alreadyConfigured s)

/-- WRITE_BYTE c, b (41_port_driver.md R102): the issue; the byte goes out in the transmit step (R109). -/
def execWriteByte (c : Chan) (b : Byte) (s : State) : Result :=
  whenRunning c s fun s => .next (startSending c [b] s)

/-- WRITE_BYTE_BOUNDED c, b, limit (41_port_driver.md R103): the issue; the polls are poll steps (R110). -/
def execWriteByteBounded (c : Chan) (b : Byte) (limit : Half) (s : State) : Result :=
  whenRunning c s fun s => .next { s with fg := .polling c b limit }

/-- PUSH_RECEIVED c, b (41_port_driver.md R104), shared by port PRX and RX_DISPATCH. On a channel that is not Running
the operation "has no step and no state changes" (log 11). -/
def pushOn (c : Chan) (b : Byte) (s : State) : Result :=
  match (s.chan c).st with
  | .running => enqueueOn c b s
  | .uninitialized => .next s
  | .configured => .next s

/-- PUSH_RECEIVED c, b on port PRX (41_port_driver.md R104). -/
def execPushReceived (c : Chan) (b : Byte) (s : State) : Result := pushOn c b s

/-- READ_BYTE c (41_port_driver.md R105). -/
def execReadByte (c : Chan) (s : State) : Result :=
  whenRunning c s fun s =>
    dequeueOn c s raiseEmptyQueue (fun v s => respond .ok (v.setWidth 16) s)

/-- PENDING_COUNT c (41_port_driver.md R106): the IDXW bits of RB.COUNT's result, zero-extended. -/
def execPendingCount (c : Chan) (s : State) : Result :=
  whenRunning c s fun s => .next (respond .ok ((BitVec.ofNat (idxWidth s.cfg.n) (countOf c s)).setWidth 16) s)

end Machine
end Sys2Proof
end

