-- ==== Sys2Proof/Machine/Interrupt.lean ====
section
/-! DEFINITION. Taking the receive interrupt (60_exceptions.md R166 to R173). Entry saves nothing and return restores
nothing (R170, R171), so the dispatch is the whole of it. -/

namespace Sys2Proof
namespace Machine

/-- RX_DISPATCH c (60_exceptions.md R168): the status read, the read of the pending byte, and PUSH_RECEIVED, one
transition. Where the interrupt is not pending the operation has no step and nothing changes (log 10). -/
def execRxDispatch (c : Chan) (s : State) : Result :=
  if rxPending c s then
    let s := readSr c s
    pushOn c (rhrValue c s) (readRhr c s)
  else .next s

end Machine
end Sys2Proof
end

