-- ==== Sys2Proof/Machine/Dispatch.lean ====
section
/-! DEFINITION. One arm per operation, each a direct call of its meaning. -/

namespace Sys2Proof
namespace Machine

/-- What an operation does to a state. -/
def exec (i : Instr) (s : State) : Host.Outcome State Fault Refusal :=
  match i with
  | .configure c div => Sys2Proof.Machine.execConfigure c div s
  | .writeByte c b => Sys2Proof.Machine.execWriteByte c b s
  | .writeText c text => Sys2Proof.Machine.execWriteText c text s
  | .writeUdec c v => Sys2Proof.Machine.execWriteUdec c v s
  | .writeHex32 c v => Sys2Proof.Machine.execWriteHex32 c v s
  | .readByte c => Sys2Proof.Machine.execReadByte c s
  | .pendingCount c => Sys2Proof.Machine.execPendingCount c s
  | .writeByteBounded c b limit => Sys2Proof.Machine.execWriteByteBounded c b limit s
  | .rbEnqueue c b => Sys2Proof.Machine.execRbEnqueue c b s
  | .rbDequeue c => Sys2Proof.Machine.execRbDequeue c s
  | .rbCount c => Sys2Proof.Machine.execRbCount c s
  | .pushReceived c b => Sys2Proof.Machine.execPushReceived c b s
  | .rxDispatch c => Sys2Proof.Machine.execRxDispatch c s

end Machine
end Sys2Proof
end

