-- ==== Sys2Proof/Machine/Agents.lean ====
section
/-! DEFINITION. The steps of the agents (60_exceptions.md R180, R183) and what the outside may do (70_reset_and_hazards.md
R203). A step that is not enabled does not occur: the state is left as it is (log 6). -/

namespace Sys2Proof
namespace Machine

/-- `ENV[c]`, byte arrival, enabled when `p[c].rx_en` (43_channel_mux.md R147). -/
def envArrive (c : Chan) (b : Byte) (s : State) : State :=
  if (s.chan c).per.rxEn then modPer c (fun p => { p with rhr := b, rxrdy := true }) s else s

/-- `ENV[c]`, transmit-ready, enabled when `p[c].tx_en && !p[c].txrdy` (43_channel_mux.md R148). -/
def envTxReady (c : Chan) (s : State) : State :=
  if (s.chan c).per.txEn && !(s.chan c).per.txrdy then modPer c (fun p => { p with txrdy := true }) s else s

/-- The foreground caller presents bytes on port CMD, which it may do when `fg == Idle` (70_reset_and_hazards.md R203,
log 7). -/
def presentBytes (bytes : List Byte) (s : State) : State :=
  match s.fg with
  | .idle => { s with port := s.port ++ bytes }
  | .sending _ _ _ => s
  | .polling _ _ _ => s

/-- Execute what a port's content decodes to: an operation runs on the state with the bytes after it left on port
CMD; an illegal header is a command of its own that raises IllegalCommand (30_encoding.md R65); an incomplete command
is no command (R64); the RBP pattern `0b00` is no operation (R67). -/
def runDecoded (d : Decoded) (s : State) : Result :=
  match d with
  | .ok i rest => exec i { s with port := rest }
  | .illegal _ rest => .next (raise .illegalCommand { s with port := rest })
  | .incomplete => .next s
  | .noOperation => .next s

/-- The foreground's step (60_exceptions.md R183). -/
def fgStep (s : State) : Result :=
  match s.fg with
  | .idle => runDecoded (decode (.cmd s.port)) s
  | .sending c b rest => .next (transmitStep c b rest s)
  | .polling c b left => .next (pollStep c b left s)

/-- An operation presented on a port other than CMD; port CMD keeps its bytes. -/
def runPort (w : Wire) (s : State) : Result :=
  match decode w with
  | .ok i _ => exec i s
  | .illegal _ _ => .next s
  | .incomplete => .next s
  | .noOperation => .next s

/-- The step one event stands for. -/
def takeEvent (e : Event) (s : State) : Result :=
  match e with
  | .fg => fgStep s
  | .irq w => runPort (.irq w) s
  | .arrive c b => .next (envArrive c b s)
  | .txReady c => .next (envTxReady c s)
  | .present bytes => .next (presentBytes bytes s)
  | .prx w => runPort (.prx w) s
  | .rbp c w => runPort (.rbp c w) s

/-- The state with a port's content placed so that the very next event takes it. -/
def placeWire (w : Wire) (s : State) : State :=
  match w with
  | .cmd bytes => { s with fg := .idle, port := bytes ++ s.port, sched := .fg :: s.sched }
  | .irq w => { s with sched := .irq w :: s.sched }
  | .prx w => { s with sched := .prx w :: s.sched }
  | .rbp c w => { s with sched := .rbp c w :: s.sched }

end Machine
end Sys2Proof
end

