-- ==== Sys2Proof/Machine/Step.lean ====
section
/-! DEFINITION. One step: the next event of the schedule (60_exceptions.md R183). -/

namespace Sys2Proof
namespace Machine

/-- Take the next event off the schedule and take its step; with nothing scheduled no agent steps and the state is
unchanged (70_reset_and_hazards.md R190, R200; log 6). -/
def step (s : State) : Host.Outcome State Fault Refusal :=
  match s.sched with
  | [] => .next s
  | e :: rest => takeEvent e { s with sched := rest }

/-- The state with a word of the opcode table placed where the next step takes it (log 8). -/
def State.withFetchWord (s : State) (nbits w : Nat) : State := placeWire (tableWire nbits w) s

end Machine
end Sys2Proof
end

