-- ==== Sys2Proof/Machine/Bus.lean ====
section
/-! DEFINITION. The register-layout dispatch as physical accesses (43_channel_mux.md R139, R140; 20_memory.md R44): the
address, the width and the word of an access that the rest of the model makes on the abstract registers. -/

namespace Sys2Proof

/-- The code of a value in a field's encoding (43_channel_mux.md R139); of a value it does not list, a free value
(log 25). -/
def FieldCode.code (f : FieldCode) (v : Nat) : Nat := (f.codes.lookup v).getD (Config.freeCode v)

/-- A code of the field, in place. -/
def FieldCode.place (f : FieldCode) (code : Nat) : Nat := code * 2 ^ f.pos

/-- The code of a parity; of one other than `none`, which the block never writes, a free value (log 25). -/
def Layout.parCode (l : Layout) : Machine.Parity → Nat
  | .none => l.parNoneCode
  | .other => Config.freeParityCode

/-- `MODE.PAR`, in place (43_channel_mux.md R139). -/
def Layout.parWord (l : Layout) (p : Machine.Parity) : Nat := l.parCode p * 2 ^ l.parPos

/-- An encoding is one (log 24, DEDUCED): a value has one code, and two values have two. -/
abbrev FieldCode.Wf (f : FieldCode) : Prop := (f.codes.map Prod.fst).Nodup ∧ (f.codes.map Prod.snd).Nodup

/-- What a layout must satisfy for the words of its registers to hold the fields used: they fit in the register
(20_memory.md R42), the 16 bits of `BRGR.CD` included (the 8 of `RHR.RXCHR` and `THR.TXCHR` fit in every width). That two
fields of one register share no bit is the model's reading (log 24, DEDUCED). -/
abbrev Layout.FieldsFit (l : Layout) : Prop :=
  [l.rstrxBit, l.rsttxBit, l.rxenBit, l.txenBit].Nodup ∧
  (∀ i ∈ [l.rstrxBit, l.rsttxBit, l.rxenBit, l.txenBit], i < l.ctrl.width.bits) ∧
  l.ierRxrdyBit < l.ier.width.bits ∧
  l.srRxrdyBit ≠ l.srTxrdyBit ∧ l.srRxrdyBit < l.sr.width.bits ∧ l.srTxrdyBit < l.sr.width.bits ∧
  16 ≤ l.brgr.width.bits ∧
  l.parWord .none < 2 ^ l.mode.width.bits

/-- The same of the two frame fields of MODE: both are encodings, every code fits in the register, and no code of one
field shares a bit with a code of the other or with PAR (log 24). -/
abbrev UsartLayout.FrameFits (l : UsartLayout) : Prop :=
  l.chrl.Wf ∧ l.nbstop.Wf ∧
  (∀ e ∈ l.chrl.codes, l.chrl.place e.2 < 2 ^ l.mode.width.bits ∧ l.parWord .none &&& l.chrl.place e.2 = 0) ∧
  (∀ e ∈ l.nbstop.codes, l.nbstop.place e.2 < 2 ^ l.mode.width.bits ∧ l.parWord .none &&& l.nbstop.place e.2 = 0) ∧
  (∀ e ∈ l.chrl.codes, ∀ e' ∈ l.nbstop.codes, l.chrl.place e.2 &&& l.nbstop.place e'.2 = 0)

/-- What the parameters must satisfy for the MODE word of a USART channel to hold its fields: they fit, and the layout
encodes the configured character length and stop-bit count (43_channel_mux.md R144; log 24, DEDUCED). -/
abbrev Config.UsartFits (k : Config) : Prop :=
  k.layoutUsart.FieldsFit ∧ k.layoutUsart.FrameFits ∧
  k.usartCharlen ∈ k.layoutUsart.chrl.codes.map Prod.fst ∧ k.usartStopbits ∈ k.layoutUsart.nbstop.codes.map Prod.fst

/-- A layout in which the fields used fit, and in which an offset stands for one register. DESIGN CHOICE (log 24): the
spec leaves every offset OPEN and does not say whether two abstract registers of one layout may share one; the model's
well-formed layouts are those in which none do. A premise of one clause of one statement; no operation looks at it. -/
abbrev Layout.Wf (l : Layout) : Prop :=
  l.FieldsFit ∧ ([l.ctrl, l.mode, l.ier, l.sr, l.rhr, l.thr, l.brgr].map RegSlot.off).Nodup

namespace Machine

/-- LAYOUT[KIND[c]], what both families have. -/
def layoutOf (k : Config) (c : Chan) : Layout :=
  match kindOf c with
  | .uart => k.layoutUart
  | .usart => k.layoutUsart.toLayout

/-- The frame fields of LAYOUT[KIND[c]]: the UART layout has none (43_channel_mux.md R139, R141). -/
def frameOf (k : Config) (c : Chan) : Option FrameFields :=
  match kindOf c with
  | .uart => none
  | .usart => some k.layoutUsart.toFrameFields

/-- The place of an abstract register in a layout. -/
def regSlot (l : Layout) : Reg → RegSlot
  | .ctrl => l.ctrl
  | .mode => l.mode
  | .ier => l.ier
  | .sr => l.sr
  | .rhr => l.rhr
  | .thr => l.thr
  | .brgr => l.brgr

/-- The physical address `DESC[c].regbase + LAYOUT[KIND[c]].offset(REG)` (43_channel_mux.md R140). -/
def physAddr (k : Config) (c : Chan) (r : Reg) : Nat :=
  (k.desc.get c).regbase + (regSlot (layoutOf k c) r).off

/-- The register a written value belongs to. -/
def regOfVal : RegVal → Reg
  | .ctrl _ _ _ _ => .ctrl
  | .mode _ => .mode
  | .ier _ => .ier
  | .thr _ => .thr
  | .brgr _ => .brgr

/-- A flag at its bit. -/
def atBit (b : Bool) (i : Nat) : Nat := if b then 2 ^ i else 0

/-- A value encoded and in place; absent, the field is zero. -/
def fieldWord (f : FieldCode) : Option Nat → Nat
  | none => 0
  | some v => f.place (f.code v)

/-- `modeword`: PAR, and where the layout has them CHRL and NBSTOP, each encoded and placed as the layout says, every
other field zero (43_channel_mux.md R144). -/
def modeWord (l : Layout) (f : Option FrameFields) (m : Mode) : Nat :=
  match f with
  | none => l.parWord m.parity
  | some f => l.parWord m.parity ||| fieldWord f.chrl m.charlen ||| fieldWord f.nbstop m.stopbits

/-- The fields of a written value, placed as the layout says (43_channel_mux.md R139). -/
def placed (l : Layout) (f : Option FrameFields) : RegVal → Nat
  | .ctrl rstrx rsttx rxen txen =>
    atBit rstrx l.rstrxBit ||| atBit rsttx l.rsttxBit ||| atBit rxen l.rxenBit ||| atBit txen l.txenBit
  | .mode m => modeWord l f m
  | .ier rxrdy => atBit rxrdy l.ierRxrdyBit
  | .thr b => b.toNat
  | .brgr cd => cd.toNat

/-- The word a written value is in a layout: its fields in place, as wide as its register (20_memory.md R42). -/
def valWord (l : Layout) (f : Option FrameFields) (v : RegVal) : Nat :=
  placed l f v % 2 ^ (regSlot l (regOfVal v)).width.bits

/-- The command bits a word written to CTRL holds. -/
def ctrlOfWord (l : Layout) (w : Nat) : RegVal :=
  .ctrl (w.testBit l.rstrxBit) (w.testBit l.rsttxBit) (w.testBit l.rxenBit) (w.testBit l.txenBit)

/-- The two flags of a word read from SR, RXRDY first; all other bits are ignored (20_memory.md R43). -/
def flagsOfWord (l : Layout) (w : Nat) : Bool × Bool := (w.testBit l.srRxrdyBit, w.testBit l.srTxrdyBit)

/-- The byte of a word read from RHR: bits 7:0, the rest discarded (20_memory.md R43). -/
def byteOfWord (w : Nat) : Byte := BitVec.ofNat 8 w

/-- A physical register access: where it is, how wide, and of a write its word. -/
structure PhysAccess where
  addr  : Nat
  width : AccessWidth
  word  : Option Nat
  deriving DecidableEq, Repr

/-- The physical access to a register of channel `c`: always to the whole register (20_memory.md R42). -/
def physAt (k : Config) (c : Chan) (r : Reg) (word : Option Nat) : PhysAccess :=
  ⟨physAddr k c r, (regSlot (layoutOf k c) r).width, word⟩

/-- The physical register access an entry of `extlog` stands for. The pin and interrupt controllers have no addresses
in the spec. -/
def physAccess (k : Config) : Access → Option PhysAccess
  | .regWrite c v => some (physAt k c (regOfVal v) (some (valWord (layoutOf k c) (frameOf k c) v)))
  | .readSr c _ _ => some (physAt k c .sr none)
  | .readRhr c _ => some (physAt k c .rhr none)
  | .pinRelease _ _ => none
  | .pinGroup _ _ _ => none
  | .pinPullup _ _ => none
  | .intcEnable _ => none

end Machine
end Sys2Proof
end

