-- ==== Sys2Proof/WellFormed.lean ====
section
/-! DEFINITION. Which instructions are well formed: the one condition the types do not carry. -/

namespace Sys2Proof

/-- An operation is well formed when it can be expressed: no byte of a text is TERMINATOR
(42_formatted_output.md R121); every pattern of every other operand is legal (30_encoding.md R62). -/
def Instr.wf : Instr → Bool
  | .configure _ _ => true
  | .writeByte _ _ => true
  | .writeText _ text => text.all (· != Config.terminator)
  | .writeUdec _ _ => true
  | .writeHex32 _ _ => true
  | .readByte _ => true
  | .pendingCount _ => true
  | .writeByteBounded _ _ _ => true
  | .rbEnqueue _ _ => true
  | .rbDequeue _ => true
  | .rbCount _ => true
  | .pushReceived _ _ => true
  | .rxDispatch _ => true

end Sys2Proof
end

