-- ==== Sys2Proof/Safety.lean ====
section
/-! DEFINITION. The terms claims are stated in: the invariant of a ring buffer (10_state.md R15) and of the whole machine,
the bytes a buffer holds, runs of operations, and what a number of ASCII digits stands for. -/

namespace Sys2Proof
namespace Machine

/-! ### One ring buffer -/

/-- The invariant of a ring buffer of size `n` (10_state.md R15 (a) to (d)), and that its store is canonical and inside
the address space. -/
abbrev Rb.Wf (n : Nat) (rb : Rb) : Prop :=
  Memory.wf rb.store ∧ (∀ e ∈ rb.store, e.1 < n) ∧ rb.head < n ∧ rb.tail < n ∧ rb.count < n ∧
  rb.tail = (rb.head + rb.count + (n - 1)) % n ∧
  ∀ i < rb.count, (getCell rb.store ((rb.head + i) % n)).isSome = true

/-- The valid bytes, oldest first: `store[(head + i) mod N]` for `i = 0 .. count - 1` (10_state.md R15 (d)). -/
def contents (n : Nat) (rb : Rb) : List Byte :=
  (List.range rb.count).filterMap fun i => getCell rb.store ((rb.head + i) % n)

/-! ### The whole machine -/

/-- The byte a log entry hands to the transmitter of channel `c`. -/
def thrByte (c : Chan) : Access → Option Byte
  | .regWrite d (.thr b) => if d = c then some b else none
  | .regWrite _ (.ctrl _ _ _ _) => none
  | .regWrite _ (.mode _) => none
  | .regWrite _ (.ier _) => none
  | .regWrite _ (.brgr _) => none
  | .readSr _ _ _ => none
  | .readRhr _ _ => none
  | .pinRelease _ _ => none
  | .pinGroup _ _ _ => none
  | .pinPullup _ _ => none
  | .intcEnable _ => none

/-- The channel an in-flight operation transmits on. -/
def Fg.target : Fg → Option Chan
  | .idle => none
  | .sending c _ _ => some c
  | .polling c _ _ => some c

/-- A pin as CONFIGURE leaves it (43_channel_mux.md R151). -/
abbrev pinConfigured (g : PinGroup) (q : Nat) (s : State) : Prop := pinGet q s = ⟨.periph, g, true⟩

/-- What holds of channel `c` before CONFIGURE and after it (41_port_driver.md R101, R107; 60_exceptions.md R167). -/
abbrev ChannelInv (c : Chan) (s : State) : Prop :=
  Rb.Wf s.cfg.n (s.chan c).rb ∧
  (s.chan c).st ≠ .configured ∧
  ((s.chan c).per.ierRxrdy = true ↔ (s.chan c).st = .running) ∧
  ((descOf c s).vector ∈ s.intc ↔ (s.chan c).st = .running) ∧
  ((s.chan c).st = .running →
    (s.chan c).per.rxEn = true ∧ (s.chan c).per.txEn = true ∧
    (s.chan c).per.brgr = (s.chan c).baud ∧ (s.chan c).per.mode = modeOf s.cfg c ∧
    pinConfigured (groupOf s.cfg c) (descOf c s).rxPin s ∧ pinConfigured (groupOf s.cfg c) (descOf c s).txPin s) ∧
  ((s.chan c).st = .uninitialized → (s.chan c).line = []) ∧
  (s.chan c).line = s.extlog.filterMap (thrByte c)

/-- The invariant of the machine. -/
abbrev StateInv (s : State) : Prop :=
  s.cfg.Wf ∧ (∀ c, ChannelInv c s) ∧ s.intc.Pairwise (· < ·) ∧ keysRise s.pins ∧
  (∀ c, s.fg.target = some c → (s.chan c).st = .running) ∧
  s.resp = s.responses.getLast?.getD ⟨.ok, 0⟩

/-! ### Operations, their channels and runs -/

/-- The channel an operation names (43_channel_mux.md R140: exactly one). -/
def chanOfInstr : Instr → Chan
  | .configure c _ => c
  | .writeByte c _ => c
  | .writeText c _ => c
  | .writeUdec c _ => c
  | .writeHex32 c _ => c
  | .readByte c => c
  | .pendingCount c => c
  | .writeByteBounded c _ _ => c
  | .rbEnqueue c _ => c
  | .rbDequeue c => c
  | .rbCount c => c
  | .pushReceived c _ => c
  | .rxDispatch c => c

/-- The operation is a foreground command (60_exceptions.md R181). -/
def isCommand (i : Instr) : Bool :=
  match encode i with
  | .cmd _ => true
  | .irq _ => false
  | .prx _ => false
  | .rbp _ _ => false

/-- The operations in order, each on the state the one before it leaves. -/
def runOps : List Instr → State → Result
  | [], s => .next s
  | i :: is, s =>
    match exec i s with
    | .next s' => runOps is s'
    | .fault r => .fault r
    | .refused r => .refused r

/-- The number a list of digit characters stands for in a base, the first the most significant. -/
def numeral (base : Nat) (digitValue : Byte → Nat) (L : List Byte) : Nat :=
  L.foldl (fun acc b => acc * base + digitValue b) 0

/-- The value of an ASCII digit `0..9` or `A..F` (42_formatted_output.md R124). -/
def asciiValue (b : Byte) : Nat := if b.toNat ≤ 0x39 then b.toNat - 0x30 else b.toNat - 0x37

/-- A decimal digit character. -/
def isDecChar (b : Byte) : Bool := 0x30 ≤ b.toNat && b.toNat ≤ 0x39

/-- An upper-case hexadecimal digit character. -/
def isHexChar (b : Byte) : Bool := isDecChar b || (0x41 ≤ b.toNat && b.toNat ≤ 0x46)

/-- The element of a ring buffer an operation stores to: the channel and the index after `tail`
(40_ringbuffer.md R80); none for an operation that stores nothing. -/
def storeTarget : Instr → State → Option (Chan × Nat)
  | .rbEnqueue c _, s => some (c, nxt s.cfg.n (s.chan c).rb.tail)
  | .pushReceived c _, s =>
    if (s.chan c).st = .running then some (c, nxt s.cfg.n (s.chan c).rb.tail) else none
  | .rxDispatch c, s =>
    if rxPending c s ∧ (s.chan c).st = .running then some (c, nxt s.cfg.n (s.chan c).rb.tail) else none
  | .configure _ _, _ => none
  | .writeByte _ _, _ => none
  | .writeText _ _, _ => none
  | .writeUdec _ _, _ => none
  | .writeHex32 _ _, _ => none
  | .readByte _, _ => none
  | .pendingCount _, _ => none
  | .writeByteBounded _ _ _, _ => none
  | .rbDequeue _, _ => none
  | .rbCount _, _ => none

/-- An operation on the RBP port of channel `c` that changes the buffer. -/
def isRingOp (c : Chan) (i : Instr) : Bool :=
  match i with
  | .rbEnqueue d _ => d == c
  | .rbDequeue d => d == c
  | .rbCount _ => false
  | .configure _ _ => false
  | .writeByte _ _ => false
  | .writeText _ _ => false
  | .writeUdec _ _ => false
  | .writeHex32 _ _ => false
  | .readByte _ => false
  | .pendingCount _ => false
  | .writeByteBounded _ _ _ => false
  | .pushReceived _ _ => false
  | .rxDispatch _ => false

/-- An enqueue on an RBP port. -/
def isEnqueue (i : Instr) : Bool :=
  match i with
  | .rbEnqueue _ _ => true
  | .rbDequeue _ => false
  | .rbCount _ => false
  | .configure _ _ => false
  | .writeByte _ _ => false
  | .writeText _ _ => false
  | .writeUdec _ _ => false
  | .writeHex32 _ _ => false
  | .readByte _ => false
  | .pendingCount _ => false
  | .writeByteBounded _ _ _ => false
  | .pushReceived _ _ => false
  | .rxDispatch _ => false

/-- The operation does not find the buffer of channel `c` full (an enqueue) or empty (a dequeue). -/
def fitsBuffer (c : Chan) (i : Instr) (s : State) : Bool :=
  if isEnqueue i then !isFull c s else !isEmpty c s

/-- An event of the peripherals or of the interrupt side: `ENV[c]` steps and interrupt events. -/
def isBackground (e : Event) : Bool :=
  match e with
  | .irq _ => true
  | .arrive _ _ => true
  | .txReady _ => true
  | .fg => false
  | .present _ => false
  | .prx _ => false
  | .rbp _ _ => false

/-- One round of a transmission on channel `c`: background events, TXRDY rises, more background events, and the
foreground's transmit step. -/
def sendRound (c : Chan) (r : List Event × List Event) : List Event := r.1 ++ .txReady c :: (r.2 ++ [.fg])

/-- A quiescent state (60_exceptions.md R183, 70_reset_and_hazards.md R200): the foreground is idle, no command is
presented, and no dispatch is enabled. -/
abbrev quiescent (s : State) : Prop :=
  s.fg = .idle ∧ decodeCmd s.port = .incomplete ∧ ∀ c, rxPending c s = false

/-- Every channel but `c` is as before. -/
abbrev othersSame (c : Chan) (s t : State) : Prop := ∀ d, d ≠ c → t.chan d = s.chan d

/-- The parameters, port CMD and the schedule are as before: no operation touches them. -/
abbrev outsideSame (s t : State) : Prop := t.cfg = s.cfg ∧ t.port = s.port ∧ t.sched = s.sched

end Machine
end Sys2Proof
end

