-- ==== Sys2Proof/Certificates/Slice0/Obligations.lean ====
section
/-! DEFINITION. The statements for the provers, rule by rule of spec/. Where a statement says `.next` of a record update,
every field the update does not name is unchanged: the equation is the frame. That an event which is not enabled is
passed over, and what becomes of `sched`, is the model's form of the step relation (log 6); `rbOut`, `draws`, `port` and
`responses` are the model's own fields (logs 12, 5, 7, 13). -/

open Sys2Proof Sys2Proof.Machine

/-! ### Encoding -/

/-- A few words written out from 30_encoding.md R63, R66 and R67 decode to the operations they stand for (sanity). -/
def Obligations.WrittenOutWordsDecode : Prop :=
  decode (.cmd [0x10, 0x22, 0x02]) = .ok (.configure 0 546) [] ∧
  decode (.cmd [0x31, 0x76, 0x3D, 0x00, 0x60]) = .ok (.writeText 1 [0x76, 0x3D]) [0x60] ∧
  decode (.cmd [0x41, 0x39, 0x30, 0x00, 0x00]) = .ok (.writeUdec 1 12345) [] ∧
  decode (.cmd [0x82, 0x00, 0xFF, 0xFE]) = .ok (.writeByteBounded 2 0x00 0xFEFF) [] ∧
  decode (.cmd [0x64]) = .illegal 0x64 [] ∧
  decode (.rbp 3 0x1A5) = .ok (.rbEnqueue 3 0xA5) [] ∧
  decode (.prx 0x27E) = .ok (.pushReceived 2 0x7E) [] ∧
  decode (.irq 3) = .ok (.rxDispatch 3) []

/-- Decoding the encoding of any well-formed operation gives it back, whatever follows it on the command port. -/
def Obligations.DecodeOfEncodeIsTheOperation : Prop :=
  ∀ (i : Instr), i.wf = true →
    (∀ bytes, encode i = .cmd bytes → ∀ rest, decodeCmd (bytes ++ rest) = .ok i rest) ∧
    decode (encode i) = .ok i []

/-- The other direction on the command port: what decodes is well formed, and its encoding is the very bytes
consumed, so a command has one form and no other bytes stand for it. -/
def Obligations.DecodedCommandReencodesToItsBytes : Prop :=
  ∀ (bytes rest : List Byte) (i : Instr), decodeCmd bytes = .ok i rest →
    i.wf = true ∧ ∃ used, encode i = .cmd used ∧ bytes = used ++ rest

/-- 30_encoding.md R63: the opcode map of port CMD, row by row, for every channel, every operand and whatever follows:
the header byte is `16 * op + ch`, the operands stand low byte first, a text ends at its first TERMINATOR, and `op`
0 and 9 to 15 are illegal one-byte commands; the reserved bits take part in the match, so a header with `rsv` not 00
selects no row, whatever its `op`. -/
def Obligations.OpcodeMapOfPortCmd : Prop :=
  ∀ (c : Chan) (rest : List Byte),
    let h (op : Nat) : Byte := BitVec.ofNat 8 (16 * op + c.val)
    (∀ b1 b2 : Byte, decodeCmd (h 1 :: b1 :: b2 :: rest) = .ok (.configure c (b2 ++ b1)) rest) ∧
    (∀ b : Byte, decodeCmd (h 2 :: b :: rest) = .ok (.writeByte c b) rest) ∧
    (∀ text : List Byte, (∀ b ∈ text, b ≠ 0x00#8) →
      decodeCmd (h 3 :: (text ++ 0x00#8 :: rest)) = .ok (.writeText c text) rest) ∧
    (∀ b1 b2 b3 b4 : Byte, decodeCmd (h 4 :: b1 :: b2 :: b3 :: b4 :: rest) =
      .ok (.writeUdec c (b4 ++ b3 ++ b2 ++ b1)) rest) ∧
    (∀ b1 b2 b3 b4 : Byte, decodeCmd (h 5 :: b1 :: b2 :: b3 :: b4 :: rest) =
      .ok (.writeHex32 c (b4 ++ b3 ++ b2 ++ b1)) rest) ∧
    decodeCmd (h 6 :: rest) = .ok (.readByte c) rest ∧
    decodeCmd (h 7 :: rest) = .ok (.pendingCount c) rest ∧
    (∀ b1 b2 b3 : Byte, decodeCmd (h 8 :: b1 :: b2 :: b3 :: rest) =
      .ok (.writeByteBounded c b1 (b3 ++ b2)) rest) ∧
    (∀ op : Nat, op = 0 ∨ (9 ≤ op ∧ op ≤ 15) → decodeCmd (h op :: rest) = .illegal (h op) rest) ∧
    (∀ op rsv : Nat, op ≤ 15 → 1 ≤ rsv → rsv ≤ 3 →
      let g : Byte := BitVec.ofNat 8 (16 * op + 4 * rsv + c.val)
      decodeCmd (g :: rest) = .illegal g rest)

/-- 30_encoding.md R67: the words of the two internal ports, whatever the ignored bits hold, and that neither port's
operations can be reached from the command port. -/
def Obligations.InternalPortWords : Prop :=
  (∀ (c : Chan) (b : Byte), decode (.prx (BitVec.ofNat 2 c.val ++ b)) = .ok (.pushReceived c b) []) ∧
  (∀ (c : Chan) (b : Byte), decode (.rbp c (0b00#2 ++ b)) = .noOperation) ∧
  (∀ (c : Chan) (b : Byte), decode (.rbp c (0b01#2 ++ b)) = .ok (.rbEnqueue c b) []) ∧
  (∀ (c : Chan) (b : Byte), decode (.rbp c (0b10#2 ++ b)) = .ok (.rbDequeue c) []) ∧
  (∀ (c : Chan) (b : Byte), decode (.rbp c (0b11#2 ++ b)) = .ok (.rbCount c) []) ∧
  (∀ (bytes rest : List Byte) (i : Instr), decodeCmd bytes = .ok i rest →
    ∀ c b, i ≠ .pushReceived c b ∧ i ≠ .rbEnqueue c b ∧ i ≠ .rbDequeue c ∧ i ≠ .rbCount c)

/-- 30_encoding.md R65: exactly the headers with `op` 0 or 9 to 15 or `rsv` not 0 are illegal; an illegal header is a
command of length 1 that raises IllegalCommand and changes no channel, and decoding resumes at the next byte; every IRQ
value is legal. That the RBP pattern `oo == 0b00`, which the rule calls no operation and no error, is taken off the
schedule and changes nothing is the model's reading (log 22, DEDUCED). -/
def Obligations.IllegalHeadersRaiseIllegalCommand : Prop :=
  (∀ (h : Byte) (rest : List Byte),
    decodeCmd (h :: rest) = .illegal h rest ↔
      ((h.extractLsb' 4 4).toNat = 0 ∨ 9 ≤ (h.extractLsb' 4 4).toNat ∨ h.extractLsb' 2 2 ≠ 0#2)) ∧
  (∀ (s : State) (h : Byte) (rest : List Byte) (es : List Event),
    s.fg = .idle → s.port = h :: rest → s.sched = .fg :: es →
    ((h.extractLsb' 4 4).toNat = 0 ∨ 9 ≤ (h.extractLsb' 4 4).toNat ∨ h.extractLsb' 2 2 ≠ 0#2) →
    step s = .next { s with
      port := rest, sched := es, resp := ⟨.illegalCommand, 0⟩,
      responses := s.responses ++ [⟨.illegalCommand, 0⟩] }) ∧
  (∀ (s : State) (c : Chan) (w : BitVec 10) (es : List Event),
    w.extractLsb' 8 2 = 0#2 → s.sched = .rbp c w :: es → step s = .next { s with sched := es }) ∧
  (∀ w : BitVec 2, ∃ c : Chan, c.val = w.toNat ∧ decode (.irq w) = .ok (.rxDispatch c) [])

/-- 30_encoding.md R64: a truncated command is not a command and has no effect, however far it is presented. -/
def Obligations.TruncatedCommandHasNoEffect : Prop :=
  ∀ (s : State) (i : Instr) (bytes : List Byte) (k : Nat) (es : List Event),
    i.wf = true → encode i = .cmd bytes → k < bytes.length →
    s.fg = .idle → s.port = bytes.take k → s.sched = .fg :: es →
    step s = .next { s with sched := es }

/-! ### The step -/

/-- A step runs the decoded operation: from port CMD on the state with the bytes after the command left there, from
the other three ports on the state as it is; the event is off the schedule. -/
def Obligations.StepRunsTheDecodedOperation : Prop :=
  (∀ (s : State) (i : Instr) (rest : List Byte) (es : List Event),
    s.fg = .idle → s.sched = .fg :: es → decodeCmd s.port = .ok i rest →
    step s = exec i { s with port := rest, sched := es }) ∧
  (∀ (s : State) (w : BitVec 2) (es : List Event), s.sched = .irq w :: es →
    step s = exec (decodeIrq w) { s with sched := es }) ∧
  (∀ (s : State) (w : BitVec 10) (es : List Event), s.sched = .prx w :: es →
    step s = exec (decodePrx w) { s with sched := es }) ∧
  (∀ (s : State) (c : Chan) (w : BitVec 10) (i : Instr) (es : List Event), s.sched = .rbp c w :: es →
    decodeRbp c w = .ok i [] → step s = exec i { s with sched := es })

/-- 70_reset_and_hazards.md R203: how bytes come to port CMD. While the foreground is idle the bytes its caller presents
stand behind those already there. That they wait in the field `port`, and that an event which presents bytes to a busy
foreground is passed over, is the model's choice (log 7, DESIGN CHOICE). -/
def Obligations.PresentedBytesReachThePort : Prop :=
  ∀ (s : State) (bytes : List Byte) (es : List Event), s.sched = .present bytes :: es →
    (s.fg = .idle → step s = .next { s with sched := es, port := s.port ++ bytes }) ∧
    (s.fg ≠ .idle → step s = .next { s with sched := es })

/-- A word of the opcode table placed by `withFetchWord` is what the very next step runs. The port such a word stands on,
and the zero bytes that complete a word shorter than its command, are the model's choice (log 8, DESIGN CHOICE). -/
def Obligations.PlacedTableWordRunsNext : Prop :=
  ∀ (s : State) (nbits w : Nat) (i : Instr), s.fg = .idle → decodeTableWord nbits w = some i →
    step (s.withFetchWord nbits w) = exec i s

/-- 43_channel_mux.md R147: byte arrival, enabled when `p[c].rx_en`; an earlier byte is replaced. That an arrival event
which is not enabled is passed over and changes nothing is the model's choice (log 6, DESIGN CHOICE). -/
def Obligations.ByteArrivalFillsTheHoldingRegister : Prop :=
  ∀ (s : State) (c : Chan) (b : Byte) (es : List Event), s.sched = .arrive c b :: es →
    ((s.chan c).per.rxEn = true →
      step s = .next { s with
        sched := es,
        ch := s.ch.set c { s.ch.get c with per := { (s.ch.get c).per with rhr := b, rxrdy := true } } }) ∧
    ((s.chan c).per.rxEn = false → step s = .next { s with sched := es })

/-- 43_channel_mux.md R148: transmit-ready, enabled when `p[c].tx_en && !p[c].txrdy`. That a transmit-ready event which is
not enabled is passed over and changes nothing is the model's choice (log 6, DESIGN CHOICE). -/
def Obligations.TransmitReadyRaisesTheFlag : Prop :=
  ∀ (s : State) (c : Chan) (es : List Event), s.sched = .txReady c :: es →
    ((s.chan c).per.txEn = true ∧ (s.chan c).per.txrdy = false →
      step s = .next { s with
        sched := es, ch := s.ch.set c { s.ch.get c with per := { (s.ch.get c).per with txrdy := true } } }) ∧
    (¬ ((s.chan c).per.txEn = true ∧ (s.chan c).per.txrdy = false) → step s = .next { s with sched := es })

/-! ### Ring buffer family -/

/-- 40_ringbuffer.md R80: RB.ENQUEUE stores the byte after `tail`, advances `tail`, and advances `head` where the
buffer is full, `count` otherwise; it always completes, and keeps the invariant of R15; in a full buffer the element
written is the unused one. -/
def Obligations.EnqueueStoresAfterTail : Prop :=
  ∀ (s : State) (c : Chan) (b : Byte), 2 ≤ s.cfg.n →
    let n := s.cfg.n
    let x := s.ch.get c
    let t := (x.rb.tail + 1) % n
    let rb' : Rb :=
      if x.rb.count = n - 1 then
        { store := setCell x.rb.store t b, head := (x.rb.head + 1) % n, tail := t, count := x.rb.count }
      else
        { store := setCell x.rb.store t b, head := x.rb.head, tail := t, count := x.rb.count + 1 }
    exec (.rbEnqueue c b) s = .next { s with ch := s.ch.set c { x with rb := rb' } } ∧
    (∀ w : BitVec 10, w.extractLsb' 8 2 = 0b01#2 → w.extractLsb' 0 8 = b → decodeRbp c w = .ok (.rbEnqueue c b) []) ∧
    (x.rb.Wf n → rb'.Wf n) ∧
    (x.rb.Wf n → x.rb.count = n - 1 → t = (x.rb.head + (n - 1)) % n)

/-- 40_ringbuffer.md R81: RB.DEQUEUE returns the oldest byte, one that an enqueue has written, and advances `head`; on
an empty buffer the indication is `empty` with an unconstrained byte and the buffer is unchanged. -/
def Obligations.DequeueReturnsTheOldestByte : Prop :=
  ∀ (s : State) (c : Chan), (s.chan c).rb.Wf s.cfg.n →
    let n := s.cfg.n
    let x := s.ch.get c
    (x.rb.count ≠ 0 → ∃ v,
      getCell x.rb.store x.rb.head = some v ∧
      exec (.rbDequeue c) s = .next { s with
        ch := s.ch.set c { x with
          rb := { x.rb with head := (x.rb.head + 1) % n, count := x.rb.count - 1 }, rbOut := .ok v } } ∧
      Rb.Wf n { x.rb with head := (x.rb.head + 1) % n, count := x.rb.count - 1 }) ∧
    (x.rb.count = 0 → ∃ v, exec (.rbDequeue c) s = .next { s with
      ch := s.ch.set c { x with rbOut := .empty v }, draws := s.draws + 1 }) ∧
    (∀ w : BitVec 10, w.extractLsb' 8 2 = 0b10#2 → decodeRbp c w = .ok (.rbDequeue c) [])

/-- 40_ringbuffer.md R82: RB.COUNT returns `count` exactly, at most `N - 1`, and writes nothing of the buffer. -/
def Obligations.CountReturnsCount : Prop :=
  ∀ (s : State) (c : Chan),
    exec (.rbCount c) s = .next { s with
      ch := s.ch.set c { s.ch.get c with rbOut := .count (s.ch.get c).rb.count } } ∧
    ((s.chan c).rb.Wf s.cfg.n → (s.ch.get c).rb.count ≤ s.cfg.n - 1) ∧
    (∀ (k : Config) (u : PerChan PowerOn), ((State.resetWith k u).chan c).rb.count = 0) ∧
    (∀ w : BitVec 10, w.extractLsb' 8 2 = 0b11#2 → decodeRbp c w = .ok (.rbCount c) [])

/-- 00_scope.md R5, 10_state.md R12 to R14, 40_ringbuffer.md R82: IDXW is the least `w >= 1` with `2^w >= N`, 1 to 16 bits
over the legal range; in a buffer that satisfies R15 its bits hold `head`, `tail` and `count`, and the result RB.COUNT
gives has IDXW bits too. That the state holds them as numbers is the model's choice (log 15, DESIGN CHOICE). -/
def Obligations.IndexRegistersHaveWidthIdxw : Prop :=
  (∀ n : Nat, 2 ≤ n → n ≤ 65536 →
    1 ≤ idxWidth n ∧ idxWidth n ≤ 16 ∧ n ≤ 2 ^ idxWidth n ∧ ∀ w, 1 ≤ w → n ≤ 2 ^ w → idxWidth n ≤ w) ∧
  (∀ (n : Nat) (rb : Rb), n ≤ 65536 → rb.Wf n →
    (rb.headBits n).toNat = rb.head ∧ (rb.tailBits n).toNat = rb.tail ∧ (rb.countBits n).toNat = rb.count) ∧
  (∀ (s : State) (c : Chan), s.cfg.n ≤ 65536 → (s.chan c).rb.Wf s.cfg.n →
    ∃ k : BitVec (idxWidth s.cfg.n), exec (.rbCount c) s = .next { s with
      ch := s.ch.set c { s.ch.get c with rbOut := .count k.toNat } } ∧ k.toNat = (s.ch.get c).rb.count)

/-- 40_ringbuffer.md R84, the FIFO law: `k <= N - 1` enqueues into an empty buffer, then dequeues: the `j`-th dequeue
returns the `j`-th byte enqueued, and `k` of them leave the buffer empty. -/
def Obligations.FifoLaw : Prop :=
  ∀ (s : State) (c : Chan) (bs : List Byte),
    2 ≤ s.cfg.n → (s.chan c).rb.Wf s.cfg.n → (s.chan c).rb.count = 0 → bs.length ≤ s.cfg.n - 1 →
    ∃ t, runOps (bs.map (.rbEnqueue c)) s = .next t ∧ (t.chan c).rb.count = bs.length ∧
      ∀ (j : Nat) (b : Byte), bs[j]? = some b →
        ∃ u, runOps (List.replicate (j + 1) (.rbDequeue c)) t = .next u ∧
          (u.chan c).rbOut = .ok b ∧ (u.chan c).rb.count = bs.length - (j + 1)

/-- 40_ringbuffer.md R85, the overwrite law: an enqueue into a full buffer drops exactly the oldest byte and keeps
`count == N - 1`; after any number of enqueues from an empty buffer the bytes held are the last `N - 1` of them. -/
def Obligations.OverwriteLaw : Prop :=
  (∀ (s : State) (c : Chan) (b : Byte), 2 ≤ s.cfg.n → (s.chan c).rb.Wf s.cfg.n →
    (s.chan c).rb.count = s.cfg.n - 1 →
    ∃ t, exec (.rbEnqueue c b) s = .next t ∧
      contents s.cfg.n (t.chan c).rb = (contents s.cfg.n (s.chan c).rb).drop 1 ++ [b] ∧
      (t.chan c).rb.count = s.cfg.n - 1) ∧
  (∀ (s : State) (c : Chan) (bs : List Byte), 2 ≤ s.cfg.n → (s.chan c).rb.Wf s.cfg.n →
    (s.chan c).rb.count = 0 →
    ∃ t, runOps (bs.map (.rbEnqueue c)) s = .next t ∧
      contents s.cfg.n (t.chan c).rb = bs.drop (bs.length - (s.cfg.n - 1)))

/-- 40_ringbuffer.md R86, the count law: after `K` enqueues and `J` dequeues, none finding the buffer full or empty,
RB.COUNT returns `K - J`; after any interleaving at all `0 <= count <= N - 1`. -/
def Obligations.CountLaw : Prop :=
  ∀ (s : State) (c : Chan) (ops : List Instr),
    2 ≤ s.cfg.n → (s.chan c).rb.Wf s.cfg.n → ops.all (isRingOp c) = true →
    ∃ t, runOps ops s = .next t ∧ (t.chan c).rb.count ≤ s.cfg.n - 1 ∧
      ((s.chan c).rb.count = 0 →
        (∀ pre i post u, ops = pre ++ i :: post → runOps pre s = .next u → fitsBuffer c i u = true) →
        ∃ u, exec (.rbCount c) t = .next u ∧
          (u.chan c).rbOut = .count (ops.countP isEnqueue - ops.countP (fun i => !isEnqueue i)) ∧
          ops.countP (fun i => !isEnqueue i) ≤ ops.countP isEnqueue)

/-! ### PortDriver family -/

/-- 41_port_driver.md R101 and 70_reset_and_hazards.md R196: CONFIGURE on an Uninitialized channel does the steps S1 to
S8 in order, as `extlog` shows, and leaves the channel Running; on any other it responds ALREADY_CONFIGURED and
nothing else changes. -/
def Obligations.ConfigureRunsTheEightSteps : Prop :=
  ∀ (s : State) (c : Chan) (div : Half), s.fg = .idle →
    ((s.chan c).st = .uninitialized →
      let d := s.cfg.desc.get c
      let g := groupOf s.cfg c
      ∃ t, exec (.configure c div) s = .next t ∧
        t.chan c = { s.chan c with
          st := .running, baud := div,
          per := { (s.chan c).per with
            rxEn := true, txEn := true, rxrdy := false, txrdy := false, ierRxrdy := true, brgr := div,
            mode := modeOf s.cfg c } } ∧
        (∀ e, e ≠ c → t.chan e = s.chan e) ∧
        (∀ q, pinGet q t = if q = d.rxPin ∨ q = d.txPin then ⟨.periph, g, true⟩ else pinGet q s) ∧
        (∀ v, v ∈ t.intc ↔ v = d.vector ∨ v ∈ s.intc) ∧
        t.extlog = s.extlog ++ [
          .pinRelease d.pinctl d.rxPin, .pinRelease d.pinctl d.txPin,
          .regWrite c (.ctrl true true false false),
          .pinGroup d.pinctl d.rxPin g, .pinGroup d.pinctl d.txPin g,
          .pinPullup d.pinctl d.rxPin, .pinPullup d.pinctl d.txPin,
          .regWrite c (.mode (modeOf s.cfg c)), .regWrite c (.brgr div),
          .regWrite c (.ier true),
          .intcEnable d.vector,
          .regWrite c (.ctrl false false true true)] ∧
        t.resp = ⟨.ok, 0⟩ ∧ t.responses = s.responses ++ [⟨.ok, 0⟩] ∧ t.fg = .idle ∧
        t.cfg = s.cfg ∧ t.port = s.port ∧ t.sched = s.sched ∧ t.draws = s.draws) ∧
    ((s.chan c).st ≠ .uninitialized →
      exec (.configure c div) s = .next { s with
        resp := ⟨.alreadyConfigured, 0⟩, responses := s.responses ++ [⟨.alreadyConfigured, 0⟩] })

/-- 43_channel_mux.md R138, R141, R142, R144: what CONFIGURE selects and writes for the two families. -/
def Obligations.FamiliesDifferInGroupAndMode : Prop :=
  ∀ (k : Config) (c : Chan),
    (c = 0 → groupOf k c = k.uartGroup ∧ modeOf k c = ⟨.none, none, none⟩) ∧
    (c ≠ 0 → groupOf k c = (if (k.desc.get c).altGroup then .g1 else .g0) ∧
      modeOf k c = ⟨.none, some k.usartCharlen, some k.usartStopbits⟩)

/-- 41_port_driver.md R100, 60_exceptions.md R164: every command but CONFIGURE on a channel that is not Running responds
NOT_CONFIGURED, and nothing else changes; and on the interrupt side no dispatch of such a channel is pending. -/
def Obligations.UseBeforeConfigureIsAFault : Prop :=
  (∀ (s : State) (i : Instr), s.fg = .idle → isCommand i = true → (∀ c d, i ≠ .configure c d) →
    (s.chan (chanOfInstr i)).st ≠ .running →
    exec i s = .next { s with
      resp := ⟨.notConfigured, 0⟩, responses := s.responses ++ [⟨.notConfigured, 0⟩] }) ∧
  (∀ (s : State) (c : Chan), StateInv s → (s.chan c).st ≠ .running → rxPending c s = false)

/-- 10_state.md R30: a command is accepted only when `fg == Idle`; otherwise nothing changes (log 9). -/
def Obligations.CommandWaitsForIdle : Prop :=
  ∀ (s : State) (i : Instr), isCommand i = true → s.fg ≠ .idle → exec i s = .next s

/-- 41_port_driver.md R102: WRITE_BYTE puts its byte in flight. -/
def Obligations.WriteByteStartsSending : Prop :=
  ∀ (s : State) (c : Chan) (b : Byte), s.fg = .idle → (s.chan c).st = .running →
    exec (.writeByte c b) s = .next { s with fg := .sending c b [] }

/-- 41_port_driver.md R103: WRITE_BYTE_BOUNDED starts polling with its limit. -/
def Obligations.WriteByteBoundedStartsPolling : Prop :=
  ∀ (s : State) (c : Chan) (b : Byte) (limit : Half), s.fg = .idle → (s.chan c).st = .running →
    exec (.writeByteBounded c b limit) s = .next { s with fg := .polling c b limit }

/-- 41_port_driver.md R109: the transmit step. With TXRDY set the status read and the THR write are one transition, and
the last byte responds; with TXRDY clear the foreground holds and nothing changes. -/
def Obligations.TransmitStepSendsOneByte : Prop :=
  ∀ (s : State) (c : Chan) (b : Byte) (rest : List Byte) (es : List Event),
    s.sched = .fg :: es → s.fg = .sending c b rest →
    let x := s.ch.get c
    let sent : State := { s with
      sched := es,
      ch := s.ch.set c { x with per := { x.per with txrdy := false }, line := x.line ++ [b] },
      extlog := s.extlog ++ [.readSr c x.per.rxrdy true, .regWrite c (.thr b)] }
    (x.per.txrdy = true → rest = [] →
      step s = .next { sent with fg := .idle, resp := ⟨.ok, 0⟩, responses := s.responses ++ [⟨.ok, 0⟩] }) ∧
    (x.per.txrdy = true → ∀ b' rest', rest = b' :: rest' →
      step s = .next { sent with fg := .sending c b' rest' }) ∧
    (x.per.txrdy = false → step s = .next { s with sched := es })

/-- 41_port_driver.md R110: the poll step. -/
def Obligations.PollStepReadsStatusOnce : Prop :=
  ∀ (s : State) (c : Chan) (b : Byte) (left : Half) (es : List Event),
    s.sched = .fg :: es → s.fg = .polling c b left →
    let x := s.ch.get c
    (left = 0 → step s = .next { s with
      sched := es, fg := .idle, resp := ⟨.txTimeout, 0⟩, responses := s.responses ++ [⟨.txTimeout, 0⟩] }) ∧
    (left ≠ 0 → x.per.txrdy = true → step s = .next { s with
      sched := es, fg := .idle,
      ch := s.ch.set c { x with per := { x.per with txrdy := false }, line := x.line ++ [b] },
      extlog := s.extlog ++ [.readSr c x.per.rxrdy true, .regWrite c (.thr b)],
      resp := ⟨.ok, 0⟩, responses := s.responses ++ [⟨.ok, 0⟩] }) ∧
    (left ≠ 0 → x.per.txrdy = false → step s = .next { s with
      sched := es, fg := .polling c b (left - 1), extlog := s.extlog ++ [.readSr c x.per.rxrdy false] })

/-- 41_port_driver.md R104: PUSH_RECEIVED is the enqueue on a Running channel, and changes nothing on any other
(the model's reading of "refused", log 11); in a state that satisfies the invariant RX_DISPATCH finds its channel
Running. -/
def Obligations.PushReceivedIsTheEnqueue : Prop :=
  ∀ (s : State) (c : Chan) (b : Byte), 2 ≤ s.cfg.n →
    let n := s.cfg.n
    let x := s.ch.get c
    let t := (x.rb.tail + 1) % n
    (x.st = .running →
      exec (.pushReceived c b) s = .next { s with ch := s.ch.set c { x with
        rb := { store := setCell x.rb.store t b, tail := t,
                head := if x.rb.count = n - 1 then (x.rb.head + 1) % n else x.rb.head,
                count := if x.rb.count = n - 1 then x.rb.count else x.rb.count + 1 } } }) ∧
    (x.st ≠ .running → exec (.pushReceived c b) s = .next s) ∧
    (StateInv s → rxPending c s = true → x.st = .running)

/-- 41_port_driver.md R105: READ_BYTE on a Running channel returns the oldest byte; on an empty buffer it responds
EMPTY_QUEUE with unconstrained data and changes no state of any channel. -/
def Obligations.ReadByteReturnsTheOldestByte : Prop :=
  ∀ (s : State) (c : Chan), s.fg = .idle → (s.chan c).st = .running → (s.chan c).rb.Wf s.cfg.n →
    let x := s.ch.get c
    (x.rb.count ≠ 0 → ∃ v,
      getCell x.rb.store x.rb.head = some v ∧
      exec (.readByte c) s = .next { s with
        ch := s.ch.set c { x with
          rb := { x.rb with head := (x.rb.head + 1) % s.cfg.n, count := x.rb.count - 1 } },
        resp := ⟨.ok, v.setWidth 16⟩, responses := s.responses ++ [⟨.ok, v.setWidth 16⟩] }) ∧
    (x.rb.count = 0 → ∃ d, exec (.readByte c) s = .next { s with
      resp := ⟨.emptyQueue, d⟩, responses := s.responses ++ [⟨.emptyQueue, d⟩], draws := s.draws + 1 })

/-- 41_port_driver.md R106: PENDING_COUNT on a Running channel responds the count, zero-extended, and writes nothing but
the response; under the invariants the 16 bits hold the count. -/
def Obligations.PendingCountRespondsTheCount : Prop :=
  ∀ (s : State) (c : Chan), s.fg = .idle → (s.chan c).st = .running →
    ∃ d : Half, exec (.pendingCount c) s = .next { s with
        resp := ⟨.ok, d⟩, responses := s.responses ++ [⟨.ok, d⟩] } ∧
      (s.cfg.Wf → (s.chan c).rb.Wf s.cfg.n → d.toNat = (s.chan c).rb.count ∧ d.toNat ≤ s.cfg.n - 1)

/-! ### Formatted output family -/

/-- 42_formatted_output.md R121: WRITE_TEXT sends the text and not the terminator; an empty text responds at once. A text
that holds the TERMINATOR cannot be expressed, so the operation is a well-formed one. -/
def Obligations.WriteTextStartsSendingTheText : Prop :=
  ∀ (s : State) (c : Chan) (text : List Byte), Instr.wf (.writeText c text) = true →
    s.fg = .idle → (s.chan c).st = .running →
    (text = [] → exec (.writeText c text) s = .next { s with
      resp := ⟨.ok, 0⟩, responses := s.responses ++ [⟨.ok, 0⟩] }) ∧
    (∀ b rest, text = b :: rest → exec (.writeText c text) s = .next { s with fg := .sending c b rest })

/-- 42_formatted_output.md R122: WRITE_UDEC sends decimal digit characters that stand for the operand, most significant
first, as many as the least `n >= 1` with `v < 10^n`. -/
def Obligations.WriteUdecStartsSendingTheDigits : Prop :=
  ∀ (s : State) (c : Chan) (v : Word), s.fg = .idle → (s.chan c).st = .running →
    ∃ b rest, exec (.writeUdec c v) s = .next { s with fg := .sending c b rest } ∧
      (b :: rest).all isDecChar = true ∧ numeral 10 asciiValue (b :: rest) = v.toNat ∧
      v.toNat < 10 ^ (b :: rest).length ∧ (∀ m, 1 ≤ m → v.toNat < 10 ^ m → (b :: rest).length ≤ m) ∧
      (b :: rest).length ≤ 10

/-- 42_formatted_output.md R123: WRITE_HEX32 sends exactly 8 upper-case hexadecimal digit characters that stand for the
operand, most significant first. -/
def Obligations.WriteHex32StartsSendingEightDigits : Prop :=
  ∀ (s : State) (c : Chan) (v : Word), s.fg = .idle → (s.chan c).st = .running →
    ∃ b rest, exec (.writeHex32 c v) s = .next { s with fg := .sending c b rest } ∧
      (b :: rest).length = 8 ∧ (b :: rest).all isHexChar = true ∧
      numeral 16 asciiValue (b :: rest) = v.toNat

/-! ### The receive interrupt -/

/-- 60_exceptions.md R168: a pending RX_DISPATCH reads SR and then RHR, clears RXRDY, and pushes the pending byte; one
that is not pending has no step (log 10). -/
def Obligations.RxDispatchMovesThePendingByte : Prop :=
  ∀ (s : State) (c : Chan), 2 ≤ s.cfg.n → (s.chan c).st = .running →
    let n := s.cfg.n
    let x := s.ch.get c
    let t := (x.rb.tail + 1) % n
    (rxPending c s = true →
      exec (.rxDispatch c) s = .next { s with
        ch := s.ch.set c { x with
          per := { x.per with rxrdy := false },
          rb := { store := setCell x.rb.store t x.per.rhr, tail := t,
                  head := if x.rb.count = n - 1 then (x.rb.head + 1) % n else x.rb.head,
                  count := if x.rb.count = n - 1 then x.rb.count else x.rb.count + 1 } },
        extlog := s.extlog ++ [.readSr c true x.per.txrdy, .readRhr c x.per.rhr] }) ∧
    (rxPending c s = false → exec (.rxDispatch c) s = .next s)

/-- 60_exceptions.md R167: pending is the conjunction of the three flags; it implies that the channel is Running; it is
clear at reset and after the dispatch; and no operation clears either enable. -/
def Obligations.PendingConditionOfTheReceiveInterrupt : Prop :=
  (∀ (s : State) (c : Chan), rxPending c s = true ↔
    ((s.chan c).per.rxrdy = true ∧ (s.chan c).per.ierRxrdy = true ∧ (s.cfg.desc.get c).vector ∈ s.intc)) ∧
  (∀ (s : State) (c : Chan), StateInv s → rxPending c s = true → (s.chan c).st = .running) ∧
  (∀ (k : Config) (u : PerChan PowerOn) (c : Chan), rxPending c (State.resetWith k u) = false) ∧
  (∀ (s t : State) (c : Chan), exec (.rxDispatch c) s = .next t → rxPending c t = false) ∧
  (∀ (s t : State) (i : Instr), exec i s = .next t →
    (∀ c, (s.chan c).per.ierRxrdy = true → (t.chan c).per.ierRxrdy = true) ∧ ∀ v ∈ s.intc, v ∈ t.intc)

/-- 60_exceptions.md R170: taking the interrupt, and every other operation of the interrupt side and of port RBP, leaves
the foreground exactly where it was. -/
def Obligations.InterruptSideLeavesTheForeground : Prop :=
  ∀ (s t : State) (i : Instr), isCommand i = false → exec i s = .next t →
    t.fg = s.fg ∧ t.resp = s.resp ∧ t.responses = s.responses ∧ t.port = s.port ∧ t.sched = s.sched ∧
    t.cfg = s.cfg ∧ t.pins = s.pins ∧ t.intc = s.intc ∧
    ∀ c, (t.chan c).st = (s.chan c).st ∧ (t.chan c).baud = (s.chan c).baud ∧ (t.chan c).line = (s.chan c).line

/-- 60_exceptions.md R169: two pending interrupts of different channels, taken in either order, leave the same state but
for the order of the log entries: the two logs hold the same entries, each as often, and all else is equal. -/
def Obligations.OrderOfInterruptsIsUnobservable : Prop :=
  ∀ (s : State) (c d : Chan), StateInv s → c ≠ d → rxPending c s = true → rxPending d s = true →
    ∃ t u, runOps [.rxDispatch c, .rxDispatch d] s = .next t ∧ runOps [.rxDispatch d, .rxDispatch c] s = .next u ∧
      t.extlog.Perm u.extlog ∧ { t with extlog := [] } = { u with extlog := [] }

/-! ### The collaborators -/

/-- 43_channel_mux.md R143: the effect of a control write, of an interrupt-enable write and of a divisor write; zero bits
do nothing. Each is on the peripheral of its channel alone: the rest of the channel, the line included, and the other
channels are as before. -/
def Obligations.ControlWriteEffect : Prop :=
  ∀ (s : State) (c : Chan) (rstrx rsttx rxen txen i : Bool) (d : Half),
    let x := s.ch.get c
    let p := x.per
    (regWrite c (.ctrl rstrx rsttx rxen txen) s).ch = s.ch.set c { x with per := { p with
      rxEn := rxen || (p.rxEn && !rstrx), rxrdy := p.rxrdy && !rstrx,
      txEn := txen || (p.txEn && !rsttx), txrdy := p.txrdy && !rsttx } } ∧
    (regWrite c (.ier i) s).ch = s.ch.set c { x with per := { p with ierRxrdy := p.ierRxrdy || i } } ∧
    (regWrite c (.brgr d) s).ch = s.ch.set c { x with per := { p with brgr := d } } ∧
    ∀ v ∈ [RegVal.ctrl rstrx rsttx rxen txen, .ier i, .brgr d],
      ((regWrite c v s).chan c).line = (s.chan c).line ∧ othersSame c s (regWrite c v s)

/-- 43_channel_mux.md R149, R150: a THR write appends to the line and clears TXRDY; an SR read changes no flag; an RHR
read returns the pending byte and clears RXRDY. -/
def Obligations.HoldingRegisterAccesses : Prop :=
  ∀ (s : State) (c : Chan) (b : Byte),
    (tx c b s).ch = s.ch.set c { s.ch.get c with
      per := { (s.ch.get c).per with txrdy := false }, line := (s.ch.get c).line ++ [b] } ∧
    (readSr c s).ch = s.ch ∧
    (readSr c s).extlog = s.extlog ++ [.readSr c (s.chan c).per.rxrdy (s.chan c).per.txrdy] ∧
    ((s.chan c).per.rxrdy = true → rhrValue c s = (s.chan c).per.rhr) ∧
    (readRhr c s).ch = s.ch.set c { s.ch.get c with per := { (s.ch.get c).per with rxrdy := false } }

/-- 43_channel_mux.md R151, R152: the three pin operations each write one field of one pin; IntcEnable enables one
vector. -/
def Obligations.PinAndVectorOperations : Prop :=
  ∀ (s : State) (c : Chan) (q v : Nat) (g : PinGroup),
    (∀ q', pinGet q' (pinRelease c q s) = if q' = q then { pinGet q s with owner := .periph } else pinGet q' s) ∧
    (∀ q', pinGet q' (pinGroup c q g s) = if q' = q then { pinGet q s with group := g } else pinGet q' s) ∧
    (∀ q', pinGet q' (pinPullup c q s) = if q' = q then { pinGet q s with pullup := true } else pinGet q' s) ∧
    (∀ v', v' ∈ (intcEnable v s).intc ↔ v' = v ∨ v' ∈ s.intc)

/-- 43_channel_mux.md R139, R140, 20_memory.md R42, R43: where every register access is, how wide, and the word of a
write. For the channel's layout `l`, chosen by its family alone, each abstract register is accessed at `regbase` plus the
offset that layout gives it and as wide as it says; where the fields used fit in the registers, a word written has a bit
set exactly where the layout places a field that is set, and no other; a read of SR or RHR is taken from the bits the
layout, or bits 7:0, name; the MODE word CONFIGURE writes (R144) holds the code of `PAR == none` and, on a USART channel,
the codes the layout's encodings give USART_CHARLEN and USART_STOPBITS. That these are functions of the log entry is the
model's choice (log 17, DESIGN CHOICE); that no two fields overlap and that the configured values are encoded
(`Config.UsartFits`) is log 24, DEDUCED. -/
def Obligations.PhysicalAccessesFollowTheLayout : Prop :=
  ∀ (k : Config) (c : Chan),
    let l := if c = 0 then k.layoutUart else k.layoutUsart.toLayout
    let access (r : RegSlot) (word : Option Nat) : Option PhysAccess :=
      some ⟨(k.desc.get c).regbase + r.off, r.width, word⟩
    (∀ a b e f : Bool, ∃ w, physAccess k (.regWrite c (.ctrl a b e f)) = access l.ctrl (some w) ∧
      (l.FieldsFit → w < 2 ^ l.ctrl.width.bits ∧
        (∀ i, w.testBit i = true ↔ (a = true ∧ i = l.rstrxBit) ∨ (b = true ∧ i = l.rsttxBit) ∨
          (e = true ∧ i = l.rxenBit) ∨ (f = true ∧ i = l.txenBit)) ∧
        ctrlOfWord l w = .ctrl a b e f)) ∧
    (∃ w, physAccess k (.regWrite c (.mode (modeOf k c))) = access l.mode (some w) ∧
      (c = 0 → l.FieldsFit → w < 2 ^ l.mode.width.bits ∧ w = l.parNoneCode * 2 ^ l.parPos) ∧
      (c ≠ 0 → k.UsartFits → w < 2 ^ l.mode.width.bits ∧
        ∃ x y, (k.usartCharlen, x) ∈ k.layoutUsart.chrl.codes ∧ (k.usartStopbits, y) ∈ k.layoutUsart.nbstop.codes ∧
          w = l.parNoneCode * 2 ^ l.parPos + x * 2 ^ k.layoutUsart.chrl.pos + y * 2 ^ k.layoutUsart.nbstop.pos)) ∧
    (∀ a : Bool, ∃ w, physAccess k (.regWrite c (.ier a)) = access l.ier (some w) ∧
      (l.FieldsFit → w < 2 ^ l.ier.width.bits ∧ ∀ i, w.testBit i = true ↔ (a = true ∧ i = l.ierRxrdyBit))) ∧
    (∀ b : Byte, physAccess k (.regWrite c (.thr b)) = access l.thr (some b.toNat)) ∧
    (∀ d : Half, ∃ w, physAccess k (.regWrite c (.brgr d)) = access l.brgr (some w) ∧
      (l.FieldsFit → w = d.toNat)) ∧
    (∀ rxrdy txrdy : Bool, physAccess k (.readSr c rxrdy txrdy) = access l.sr none) ∧
    (∀ b : Byte, physAccess k (.readRhr c b) = access l.rhr none) ∧
    (∀ w, flagsOfWord l w = (w.testBit l.srRxrdyBit, w.testBit l.srTxrdyBit) ∧ (byteOfWord w).toNat = w % 2 ^ 8) ∧
    (∀ (p q v : Nat) (g : PinGroup), physAccess k (.pinRelease p q) = none ∧ physAccess k (.pinGroup p q g) = none ∧
      physAccess k (.pinPullup p q) = none ∧ physAccess k (.intcEnable v) = none)

/-- 43_channel_mux.md R144: the MODE word tells the frame. In a USART layout whose fields fit, two words with
`PAR == none` are equal only if both the character length and the stop-bit count encoded in them are; that two values have
two codes and that no two fields overlap is the model's reading (log 24, DEDUCED). -/
def Obligations.ModeWordTellsTheFrame : Prop :=
  ∀ (l : UsartLayout) (v v' n n' : Nat), l.FieldsFit → l.FrameFits →
    v ∈ l.chrl.codes.map Prod.fst → v' ∈ l.chrl.codes.map Prod.fst →
    n ∈ l.nbstop.codes.map Prod.fst → n' ∈ l.nbstop.codes.map Prod.fst →
    valWord l.toLayout (some l.toFrameFields) (.mode ⟨.none, some v, some n⟩) =
      valWord l.toLayout (some l.toFrameFields) (.mode ⟨.none, some v', some n'⟩) → v = v' ∧ n = n'

/-- In a well-formed layout an address within a register block stands for one register: two accesses of one channel at
one address are of the same abstract register. The model's choice (log 24, DESIGN CHOICE): the spec does not say whether
two abstract registers may share an offset, and `Layout.Wf` is of the layouts in which none do. -/
def Obligations.AddressNamesOneRegister : Prop :=
  ∀ (k : Config) (c : Chan) (r r' : Reg), (if c = 0 then k.layoutUart else k.layoutUsart.toLayout).Wf →
    physAddr k c r = physAddr k c r' → r = r'

/-! ### Frames and whole-machine rules -/

/-- 43_channel_mux.md R140, 10_state.md R17: an operation touches the one channel it names, the pins and the vector of
that channel's descriptor, and no other; no operation touches the parameters, port CMD or the schedule. -/
def Obligations.OperationTouchesOneChannel : Prop :=
  ∀ (s t : State) (i : Instr), exec i s = .next t →
    othersSame (chanOfInstr i) s t ∧ outsideSame s t ∧
    (∀ q, q ≠ (s.cfg.desc.get (chanOfInstr i)).rxPin → q ≠ (s.cfg.desc.get (chanOfInstr i)).txPin →
      pinGet q t = pinGet q s) ∧
    (∀ v, v ≠ (s.cfg.desc.get (chanOfInstr i)).vector → (v ∈ t.intc ↔ v ∈ s.intc))

/-- Memory frame: an operation that stores nothing leaves every byte of every ring buffer reading as before; one that
stores leaves every byte but the element `storeTarget` computes. -/
def Obligations.StoreFrame : Prop :=
  ∀ (s t : State) (i : Instr), exec i s = .next t →
    (storeTarget i s = none → ∀ d a,
      memRead d s.cfg.n (t.chan d).rb.store a = memRead d s.cfg.n (s.chan d).rb.store a) ∧
    (∀ c a, storeTarget i s = some (c, a) → ∀ d b, ¬ (d = c ∧ b = a) →
      memRead d s.cfg.n (t.chan d).rb.store b = memRead d s.cfg.n (s.chan d).rb.store b)

/-- Register frame of the operations other than CONFIGURE: the channel state, the divisor, the pins, the vector enables
and every peripheral register but RXRDY are unchanged; RXRDY changes in RX_DISPATCH alone. -/
def Obligations.OnlyConfigureWritesConfiguration : Prop :=
  ∀ (s t : State) (i : Instr), (∀ c d, i ≠ .configure c d) → exec i s = .next t →
    t.pins = s.pins ∧ t.intc = s.intc ∧
    ∀ c, (t.chan c).st = (s.chan c).st ∧ (t.chan c).baud = (s.chan c).baud ∧
      (t.chan c).per = { (s.chan c).per with rxrdy := (t.chan c).per.rxrdy } ∧
      (i ≠ .rxDispatch c → (t.chan c).per.rxrdy = (s.chan c).per.rxrdy) ∧
      (t.chan c).line = (s.chan c).line

/-- 41_port_driver.md R107: a step leaves a Running channel Running and no channel Configured, and moves an
Uninitialized channel to Running only by issuing CONFIGURE for it. -/
def Obligations.ChannelStateMovesForwardOnly : Prop :=
  ∀ (s t : State) (c : Chan), StateInv s → step s = .next t →
    ((s.chan c).st = .running → (t.chan c).st = .running) ∧
    (t.chan c).st ≠ .configured ∧
    ((s.chan c).st = .uninitialized → (t.chan c).st = .running →
      s.fg = .idle ∧ ∃ d rest, decodeCmd s.port = .ok (.configure c d) rest)

/-- 30_encoding.md R71, 60_exceptions.md R160: a step gives at most one response, which ends the command; the data of a
response is zero but for the byte READ_BYTE returns zero-extended, the count PENDING_COUNT returns, and the data of
READ_BYTE's EMPTY_QUEUE. -/
def Obligations.AtMostOneResponsePerStep : Prop :=
  ∀ (s t : State), step s = .next t →
    (t.responses = s.responses ∧ t.resp = s.resp) ∨
    (t.responses = s.responses ++ [t.resp] ∧ t.fg = .idle ∧
      (t.resp.data ≠ 0 → s.fg = .idle ∧ ∃ c rest,
        (decodeCmd s.port = .ok (.readByte c) rest ∧
          (t.resp.status = .emptyQueue ∨ (t.resp.status = .ok ∧ t.resp.data.toNat < 2 ^ 8))) ∨
        (decodeCmd s.port = .ok (.pendingCount c) rest ∧ t.resp.status = .ok)))

/-- 60_exceptions.md R160, the table of faults: a response with a fault's status comes from the one cause the table
gives it, and from no other. -/
def Obligations.FaultsComeFromTheirCauses : Prop :=
  ∀ (s t : State), step s = .next t → t.responses ≠ s.responses →
    (t.resp.status = .emptyQueue → s.fg = .idle ∧ ∃ c rest, decodeCmd s.port = .ok (.readByte c) rest ∧
      (s.chan c).st = .running ∧ (s.chan c).rb.count = 0) ∧
    (t.resp.status = .notConfigured → s.fg = .idle ∧ ∃ i rest, decodeCmd s.port = .ok i rest ∧
      (∀ c d, i ≠ .configure c d) ∧ (s.chan (chanOfInstr i)).st ≠ .running) ∧
    (t.resp.status = .alreadyConfigured → s.fg = .idle ∧ ∃ c d rest, decodeCmd s.port = .ok (.configure c d) rest ∧
      (s.chan c).st ≠ .uninitialized) ∧
    (t.resp.status = .illegalCommand → s.fg = .idle ∧ ∃ h rest, decodeCmd s.port = .illegal h rest) ∧
    (t.resp.status = .txTimeout → ∃ c b, s.fg = .polling c b 0)

/-- 60_exceptions.md R160 and 10_state.md R18: the numeric codes. A status is 4 bits, `0x0` to `0x5` in the order of the
table, and `0x6` to `0xF` are never produced; a channel state is 2 bits, and 3 never occurs. -/
def Obligations.StatusAndStateCodes : Prop :=
  (statusCode .ok = 0x0#4 ∧ statusCode .emptyQueue = 0x1#4 ∧ statusCode .notConfigured = 0x2#4 ∧
    statusCode .alreadyConfigured = 0x3#4 ∧ statusCode .illegalCommand = 0x4#4 ∧ statusCode .txTimeout = 0x5#4) ∧
  (∀ st, (statusCode st).toNat ≤ 5) ∧ (∀ st st', statusCode st = statusCode st' → st = st') ∧
  (stateCode .uninitialized = 0#2 ∧ stateCode .configured = 1#2 ∧ stateCode .running = 2#2) ∧
  (∀ x, stateCode x ≠ 3#2) ∧ (∀ x y, stateCode x = stateCode y → x = y)

/-- 10_state.md R33, 70_reset_and_hazards.md R190, R191: the values the spec gives for reset, whatever the parameters;
the unspecified elements are whatever `u` says. That the store's elements, whose contents the spec calls unspecified, have
no value at all until they are written is the model's choice (log 4, DESIGN CHOICE). -/
def Obligations.ResetValues : Prop :=
  ∀ (k : Config) (u : PerChan PowerOn),
    let s := State.resetWith k u
    (∀ c, (s.chan c).rb.head = 0 ∧ (s.chan c).rb.tail = k.n - 1 ∧ (s.chan c).rb.count = 0 ∧
      (∀ i, getCell (s.chan c).rb.store i = none) ∧
      (s.chan c).st = .uninitialized ∧ (s.chan c).baud = (u.get c).baud ∧
      (s.chan c).per = { (s.chan c).per with
        rxEn := (u.get c).rxEn, txEn := (u.get c).txEn, rxrdy := (u.get c).rxrdy, txrdy := (u.get c).txrdy,
        rhr := (u.get c).rhr, ierRxrdy := false, brgr := (u.get c).brgr, mode := (u.get c).mode } ∧
      (s.chan c).line = []) ∧
    (∀ v, v ∉ s.intc) ∧ s.fg = .idle ∧ s.resp = ⟨.ok, 0⟩ ∧ s.extlog = [] ∧
    (k.Wf → ∀ c, pinGet (k.desc.get c).rxPin s = (u.get c).rxPin ∧ pinGet (k.desc.get c).txPin s = (u.get c).txPin)

/-- The machine's invariant holds at reset, for all legal parameters and all values of the unspecified elements, and of
the model's own reset state (its named values are DESIGN CHOICES, logs 2 and 3). -/
def Obligations.ResetSatisfiesInvariant : Prop :=
  (∀ (k : Config) (u : PerChan PowerOn), k.Wf → StateInv (State.resetWith k u)) ∧ StateInv State.reset

/-- Every step keeps the machine's invariant: the ring buffers of R15 with their canonical stores, the legal channel
states, the interrupt enables, the configuration of Running channels, the transmit history and the last response. -/
def Obligations.StepKeepsInvariant : Prop :=
  ∀ s t : State, StateInv s → step s = .next t → StateInv t

/-- 70_reset_and_hazards.md R201: however pushes, reads and counts are interleaved, after every step of every run
`0 <= count <= N - 1`, `0 <= head < N` and `0 <= tail < N`. -/
def Obligations.IndicesStayInRangeAlongEveryRun : Prop :=
  ∀ (s t : State) (k : Nat), StateInv s → Host.Core.run Sys2Proof.core k s = .next t →
    ∀ c, (t.chan c).rb.count ≤ s.cfg.n - 1 ∧ (t.chan c).rb.head < s.cfg.n ∧ (t.chan c).rb.tail < s.cfg.n

/-- 60_exceptions.md R160, 70_reset_and_hazards.md R200: the block never stops. From every state that satisfies the
invariant a step gives a next state. -/
def Obligations.StepNeverStops : Prop :=
  ∀ s : State, StateInv s → ∃ t, step s = .next t

/-- 60_exceptions.md R183, 70_reset_and_hazards.md R200: in a quiescent state neither the foreground nor the interrupt
side has a step: only the outside can make the block go on. -/
def Obligations.QuiescentStateRests : Prop :=
  ∀ (s : State) (e : Event) (es : List Event), quiescent s → s.sched = e :: es →
    (e = .fg ∨ ∃ w, e = .irq w) → step s = .next { s with sched := es }

/-! ### Runs -/

/-- 41_port_driver.md R109, 42_formatted_output.md R120: where `ENV[c]` raises TXRDY before each transmit step, an
operation in flight sends exactly its bytes, in order, and responds OK once, whatever arrivals and dispatches fall in
between. -/
def Obligations.SendingDeliversExactlyItsBytes : Prop :=
  ∀ (s : State) (c : Chan) (b : Byte) (rest : List Byte) (rounds : List (List Event × List Event)) (es : List Event),
    StateInv s → s.fg = .sending c b rest → rounds.length = (b :: rest).length →
    (∀ r ∈ rounds, r.1.all isBackground = true ∧ r.2.all isBackground = true) →
    s.sched = rounds.flatMap (sendRound c) ++ es →
    ∃ t, Host.Core.run Sys2Proof.core (rounds.flatMap (sendRound c)).length s = .next t ∧
      (t.chan c).line = (s.chan c).line ++ (b :: rest) ∧ (∀ d, d ≠ c → (t.chan d).line = (s.chan d).line) ∧
      t.fg = .idle ∧ t.resp = ⟨.ok, 0⟩ ∧ t.responses = s.responses ++ [⟨.ok, 0⟩] ∧ t.sched = es

/-- 60_exceptions.md R163: with TXRDY of channel `c` clear and no transmit-ready step of `ENV[c]` in the schedule, the
foreground stays where it is for as long as the machine runs: no response, no byte sent, no command accepted; that bytes presented
meanwhile are passed over is the model's choice (log 7). -/
def Obligations.StalledTransmitHangsTheForeground : Prop :=
  ∀ (s t : State) (c : Chan) (b : Byte) (rest : List Byte) (k : Nat),
    s.fg = .sending c b rest → (s.chan c).per.txrdy = false → .txReady c ∉ s.sched →
    Host.Core.run Sys2Proof.core k s = .next t →
    t.fg = s.fg ∧ t.resp = s.resp ∧ t.responses = s.responses ∧ t.port = s.port ∧
    ∀ d, (t.chan d).line = (s.chan d).line

/-- 41_port_driver.md R103, R110: against a silent peripheral WRITE_BYTE_BOUNDED ends after exactly `limit` status reads
with TX_TIMEOUT and nothing sent. -/
def Obligations.BoundedTransmitTimesOut : Prop :=
  ∀ (s : State) (c : Chan) (b : Byte) (left : Half) (es : List Event),
    s.fg = .polling c b left → (s.chan c).per.txrdy = false →
    s.sched = List.replicate (left.toNat + 1) .fg ++ es →
    Host.Core.run Sys2Proof.core (left.toNat + 1) s = .next { s with
      sched := es, fg := .idle,
      extlog := s.extlog ++ List.replicate left.toNat (.readSr c (s.chan c).per.rxrdy false),
      resp := ⟨.txTimeout, 0⟩, responses := s.responses ++ [⟨.txTimeout, 0⟩] }
end

