-- ==== Sys2Proof/Laws/Bus.lean ====
section
/-! SUPPORT. The words of register accesses: which bits a placed flag sets, when a placed word fits its register, and that
words without a common bit add up. -/

namespace Sys2Proof
namespace Machine

theorem testBit_atBit (b : Bool) (i j : Nat) : (atBit b i).testBit j = (b && decide (i = j)) := by
  cases b <;> simp [atBit, Nat.testBit_two_pow]

theorem atBit_lt (b : Bool) {i w : Nat} (h : i < w) : atBit b i < 2 ^ w := by
  cases b
  · simp [atBit]
  · simpa [atBit] using Nat.pow_lt_pow_right (by omega) h

/-- A word that fits its register is not cut. -/
theorem valWord_of_lt {l : Layout} {f : Option FrameFields} {v : RegVal}
    (h : placed l f v < 2 ^ (regSlot l (regOfVal v)).width.bits) : valWord l f v = placed l f v := Nat.mod_eq_of_lt h

/-- An encoding gives a value it lists the code listed with it. -/
theorem code_of_mem {f : FieldCode} (hf : f.Wf) {v x : Nat} (h : (v, x) ∈ f.codes) : f.code v = x := by
  obtain ⟨hn, _⟩ := hf
  unfold FieldCode.code
  generalize f.codes = L at h hn
  induction L with
  | nil => cases h
  | cons e L ih =>
    obtain ⟨a, b⟩ := e
    simp only [List.map_cons, List.nodup_cons] at hn
    rcases List.mem_cons.1 h with h | h
    · cases h; simp
    · have : v ≠ a := fun e => hn.1 (e ▸ List.mem_map_of_mem (f := Prod.fst) h)
      rw [List.lookup_cons, show (v == a) = false by simpa using this]
      exact ih h hn.2

/-- Where the frame fields fit, two values with the same code in place are the same value. -/
theorem place_inj {f : FieldCode} (hf : f.Wf) {e e' : Nat × Nat} (he : e ∈ f.codes) (he' : e' ∈ f.codes)
    (h : f.place e.2 = f.place e'.2) : e = e' :=
  List.inj_on_of_nodup_map hf.2 he he' (Nat.eq_of_mul_eq_mul_right (by positivity) h)

theorem eight_le_bits (w : AccessWidth) : 8 ≤ w.bits := by cases w <;> decide

/-- The MODE word of a frame the layout encodes: the three codes in place, none of it cut. -/
theorem valWord_mode {l : UsartLayout} (hl : l.FieldsFit) (hf : l.FrameFits) {v x n y : Nat}
    (hx : (v, x) ∈ l.chrl.codes) (hy : (n, y) ∈ l.nbstop.codes) :
    valWord l.toLayout (some l.toFrameFields) (.mode ⟨.none, some v, some n⟩) =
        l.parWord .none ||| l.chrl.place x ||| l.nbstop.place y ∧
      l.parWord .none ||| l.chrl.place x ||| l.nbstop.place y < 2 ^ l.mode.width.bits := by
  obtain ⟨hc, hn, h1, h2, _⟩ := hf
  have hm : placed l.toLayout (some l.toFrameFields) (.mode ⟨.none, some v, some n⟩) =
      l.parWord .none ||| l.chrl.place x ||| l.nbstop.place y := by
    simp only [placed, modeWord, fieldWord, code_of_mem hc hx, code_of_mem hn hy]
  have hlt : l.parWord .none ||| l.chrl.place x ||| l.nbstop.place y < 2 ^ l.mode.width.bits :=
    Nat.or_lt_two_pow (Nat.or_lt_two_pow hl.2.2.2.2.2.2.2 (h1 _ hx).1) (h2 _ hy).1
  exact ⟨(valWord_of_lt (by rw [hm]; exact hlt)).trans hm, hlt⟩

theorem or_eq_add {x y : Nat} (h : x &&& y = 0) : x ||| y = x + y := by
  have hx : x < 2 ^ (x + y) ∧ y < 2 ^ (x + y) ∨ x + y = 0 := by
    by_cases h0 : x + y = 0
    · exact .inr h0
    · have : x + y < 2 ^ (x + y) := Nat.lt_two_pow_self
      exact .inl ⟨by omega, by omega⟩
  obtain ⟨hx, hy⟩ | h0 := hx
  · have hb := BitVec.add_eq_or_of_and_eq_zero (BitVec.ofNat (x + y + 1) x) (BitVec.ofNat (x + y + 1) y)
      (by rw [← BitVec.ofNat_and, h])
    have := congrArg BitVec.toNat hb
    have hp : 2 ^ (x + y + 1) = 2 ^ (x + y) + 2 ^ (x + y) := by rw [pow_succ]; omega
    rw [BitVec.toNat_add, BitVec.toNat_or, BitVec.toNat_ofNat, BitVec.toNat_ofNat,
      Nat.mod_eq_of_lt (a := x) (by omega), Nat.mod_eq_of_lt (a := y) (by omega), Nat.mod_eq_of_lt (by omega)] at this
    exact this.symm
  · have : x = 0 ∧ y = 0 := by omega
    simp [this]

/-- A register access is at its register's place in the layout of the channel's family. -/
theorem physAt_eq (k : Config) (c : Chan) (r : Reg) (w : Option Nat) :
    physAt k c r w =
      ⟨(k.desc.get c).regbase + (regSlot (layoutOf k c) r).off, (regSlot (layoutOf k c) r).width, w⟩ := rfl

theorem layoutOf_eq (k : Config) (c : Chan) : layoutOf k c = if c = 0 then k.layoutUart else k.layoutUsart.toLayout := by
  by_cases h : c = 0 <;> simp [layoutOf, kindOf, h]

theorem frameOf_eq (k : Config) (c : Chan) :
    frameOf k c = if c = 0 then none else some k.layoutUsart.toFrameFields := by
  by_cases h : c = 0 <;> simp [frameOf, kindOf, h]

end Machine
end Sys2Proof
end

