-- ==== Sys2Proof/Laws/Cells.lean ====
section
/-! SUPPORT. Read after write, and the canonical form, for the sparse lists of Machine/Cells.lean. -/

namespace Sys2Proof
namespace Machine

variable {α : Type}

/-- A read after a write: the value written at its own key, what was there before at every other. -/
theorem getCell_setCell (m : List (Nat × α)) (a b : Nat) (v : α) :
    getCell (setCell m a v) b = if b = a then some v else getCell m b := by
  induction m with
  | nil => simp [setCell, getCell]
  | cons e m ih =>
    obtain ⟨k, w⟩ := e
    simp only [setCell]
    split
    · simp [getCell]
    · split
      · subst k; simp only [getCell]; split <;> simp_all
      · simp only [getCell, ih]
        split
        · subst b; rw [if_neg (by omega)]
        · rfl

@[simp] theorem getCell_setCell_same (m : List (Nat × α)) (a : Nat) (v : α) : getCell (setCell m a v) a = some v := by
  rw [getCell_setCell, if_pos rfl]

theorem getCell_setCell_ne (m : List (Nat × α)) {a b : Nat} (v : α) (h : b ≠ a) :
    getCell (setCell m a v) b = getCell m b := by rw [getCell_setCell, if_neg h]

theorem mem_keys_setCell (m : List (Nat × α)) (a b : Nat) (v : α) :
    b ∈ (setCell m a v).map Prod.fst ↔ b = a ∨ b ∈ m.map Prod.fst := by
  induction m with
  | nil => simp [setCell]
  | cons e m ih =>
    obtain ⟨k, w⟩ := e
    simp only [setCell]
    split
    · simp
    · split
      · subst k; simp
      · simp only [List.map_cons, List.mem_cons, ih]; tauto

/-- A write keeps the keys rising. -/
theorem keysRise_setCell {m : List (Nat × α)} (h : keysRise m) (a : Nat) (v : α) : keysRise (setCell m a v) := by
  induction m with
  | nil => simp [setCell, keysRise]
  | cons e m ih =>
    obtain ⟨k, w⟩ := e
    simp only [keysRise, List.map_cons, List.pairwise_cons] at h ⊢
    simp only [setCell]
    split
    · next hak =>
      simp only [List.map_cons, List.pairwise_cons, List.mem_cons]
      exact ⟨fun x hx => hx.elim (fun e => e ▸ hak) (fun e => lt_trans hak (h.1 x e)), h.1, h.2⟩
    · split
      · next hak => subst k; simpa using h
      · next h1 h2 =>
        simp only [List.map_cons, List.pairwise_cons]
        refine ⟨fun x hx => ?_, ih h.2⟩
        rcases (mem_keys_setCell m a x v).1 hx with rfl | hx
        · omega
        · exact h.1 x hx

/-- A write inside the space leaves every listed key inside it. -/
theorem keys_lt_setCell {m : List (Nat × α)} {n a : Nat} (h : ∀ e ∈ m, e.1 < n) (ha : a < n) (v : α) :
    ∀ e ∈ setCell m a v, e.1 < n := by
  intro e he
  rcases (mem_keys_setCell m a e.1 v).1 (List.mem_map_of_mem he) with h1 | h1
  · omega
  · obtain ⟨e', he', h2⟩ := List.mem_map.1 h1
    exact h2 ▸ h e' he'

theorem mem_addKey (l : List Nat) (a b : Nat) : b ∈ addKey l a ↔ b = a ∨ b ∈ l := by
  induction l with
  | nil => simp [addKey]
  | cons k l ih =>
    simp only [addKey]
    split
    · simp
    · split
      · subst k; simp
      · simp only [List.mem_cons, ih]; tauto

/-- Adding a key keeps the list rising. -/
theorem rising_addKey {l : List Nat} (h : l.Pairwise (· < ·)) (a : Nat) : (addKey l a).Pairwise (· < ·) := by
  induction l with
  | nil => simp [addKey]
  | cons k l ih =>
    rw [List.pairwise_cons] at h
    simp only [addKey]
    split
    · next hak =>
      refine List.pairwise_cons.2 ⟨fun x hx => ?_, List.pairwise_cons.2 h⟩
      rcases List.mem_cons.1 hx with rfl | hx
      · exact hak
      · exact lt_trans hak (h.1 x hx)
    · split
      · exact List.pairwise_cons.2 h
      · next h1 h2 =>
        refine List.pairwise_cons.2 ⟨fun x hx => ?_, ih h.2⟩
        rcases (mem_addKey l a x).1 hx with rfl | hx
        · omega
        · exact h.1 x hx

end Machine
end Sys2Proof
end

