-- ==== Sys2Proof/Laws/Decode.lean ====
section
/-! SUPPORT. The pieces of the decoder undo the pieces of the encoder, and the other way round. -/

namespace Sys2Proof

/-! ### Operands -/

theorem readHalf_halfBytes (v : Half) (rest : List Byte) : readHalf (halfBytes v ++ rest) = some (v, rest) := by
  simp only [halfBytes, List.cons_append, List.nil_append, readHalf, Option.some.injEq, Prod.mk.injEq, and_true]
  apply BitVec.eq_of_getLsbD_eq
  intro i hi
  simp only [BitVec.getLsbD_append, BitVec.getLsbD_extractLsb']
  split
  · next h => simp [h]
  · next h => simp [show i - 8 < 8 by omega, show 8 + (i - 8) = i by omega]

theorem halfBytes_append (b1 b2 : Byte) : halfBytes (b2 ++ b1) = [b1, b2] := by
  simp only [halfBytes, List.cons.injEq, and_true]
  constructor <;> apply BitVec.eq_of_getLsbD_eq <;> intro i hi <;>
    simp only [BitVec.getLsbD_append, BitVec.getLsbD_extractLsb', hi, decide_true, Bool.true_and]
  · simp [hi]
  · simp

theorem readWord_wordBytes (v : Word) (rest : List Byte) : readWord (wordBytes v ++ rest) = some (v, rest) := by
  simp only [wordBytes, List.cons_append, List.nil_append, readWord, Option.some.injEq, Prod.mk.injEq, and_true]
  apply BitVec.eq_of_getLsbD_eq
  intro i hi
  simp only [BitVec.getLsbD_append, BitVec.getLsbD_extractLsb']
  by_cases h0 : i < 8
  · simp [h0]
  · by_cases h1 : i < 16
    · simp [h0, show i - 8 < 8 by omega, show 8 + (i - 8) = i by omega]
    · by_cases h2 : i < 24
      · simp [h0, show ¬ i - 8 < 8 by omega, show i - 8 - 8 < 8 by omega, show 16 + (i - 8 - 8) = i by omega]
      · simp [h0, show ¬ i - 8 < 8 by omega, show ¬ i - 8 - 8 < 8 by omega, show i - 8 - 8 - 8 < 8 by omega,
          show 24 + (i - 8 - 8 - 8) = i by omega]

theorem wordBytes_append (b1 b2 b3 b4 : Byte) : wordBytes (b4 ++ b3 ++ b2 ++ b1) = [b1, b2, b3, b4] := by
  simp only [wordBytes, List.cons.injEq, and_true]
  refine ⟨?_, ?_, ?_, ?_⟩ <;> apply BitVec.eq_of_getLsbD_eq <;> intro i hi <;>
    simp only [BitVec.getLsbD_append, BitVec.getLsbD_extractLsb', hi, decide_true, Bool.true_and]
  · simp [hi]
  · simp [hi]
  · simp [hi, show ¬ 16 + i < 8 by omega, show ¬ 16 + i - 8 < 8 by omega, show 16 + i - 8 - 8 = i by omega]
  · simp [show ¬ 24 + i < 8 by omega, show ¬ 24 + i - 8 < 8 by omega, show ¬ 24 + i - 8 - 8 < 8 by omega,
      show 24 + i - 8 - 8 - 8 = i by omega]

theorem readByteLimit_bytes (b : Byte) (v : Half) (rest : List Byte) :
    readByteLimit (b :: (halfBytes v ++ rest)) = some ((b, v), rest) := by
  simp [readByteLimit, readHalf_halfBytes]

/-- A text without TERMINATOR is read back up to the TERMINATOR after it. -/
theorem readText_append (text rest : List Byte) (h : text.all (· != Config.terminator) = true) :
    readText (text ++ Config.terminator :: rest) = some (text, rest) := by
  induction text with
  | nil => simp [readText]
  | cons b t ih =>
    simp only [List.all_cons, Bool.and_eq_true, bne_iff_ne] at h
    simp [readText, h.1, ih h.2]

/-- What is read as a text holds no TERMINATOR and ends at one. -/
theorem readText_some {bytes text rest : List Byte} (h : readText bytes = some (text, rest)) :
    text.all (· != Config.terminator) = true ∧ bytes = text ++ Config.terminator :: rest := by
  induction bytes generalizing text with
  | nil => simp [readText] at h
  | cons b t ih =>
    unfold readText at h
    split at h
    · simp only [Option.some.injEq, Prod.mk.injEq] at h
      obtain ⟨rfl, rfl⟩ := h
      simp_all
    · split at h
      · cases h
      · next h1 =>
        simp only [Option.some.injEq, Prod.mk.injEq] at h
        obtain ⟨rfl, rfl⟩ := h
        have := ih h1
        simp_all

/-! ### Headers and words -/

theorem header_row : ∀ (c : Chan) (op : BitVec 4), header op c &&& 0xFC#8 = op ++ 0#4 := by decide

theorem headerChan_header : ∀ (c : Chan) (op : BitVec 4), headerChan (header op c) = c := by decide

theorem header_headerChan : ∀ (h : Byte) (op : BitVec 4), h &&& 0xFC#8 = op ++ 0#4 → header op (headerChan h) = h := by
  decide

@[simp] theorem chanOf_bitsOfChan (c : Chan) : chanOf (bitsOfChan c) = c := rfl

/-- The upper two bits of a ten-bit word. -/
theorem extract_high (x : BitVec 2) (b : Byte) : (x ++ b).extractLsb' 8 2 = x := by
  apply BitVec.eq_of_getLsbD_eq
  intro i hi
  rw [BitVec.getLsbD_extractLsb', BitVec.getLsbD_append]
  simp [hi]

/-- The lower eight bits of a ten-bit word. -/
theorem extract_low (x : BitVec 2) (b : Byte) : (x ++ b).extractLsb' 0 8 = b := by
  apply BitVec.eq_of_getLsbD_eq
  intro i hi
  rw [BitVec.getLsbD_extractLsb', BitVec.getLsbD_append]
  simp [hi]

end Sys2Proof
end

