-- ==== Sys2Proof/Laws/State.lean ====
section
/-! SUPPORT. What reading a field of a state says after each update of it. -/

namespace Sys2Proof

theorem PerChan.get_set {α : Type} (v : PerChan α) (c d : Chan) (x : α) :
    (v.set c x).get d = if d = c then x else v.get d := by
  fin_cases c <;> fin_cases d <;> rfl

@[simp] theorem PerChan.get_set_same {α : Type} (v : PerChan α) (c : Chan) (x : α) :
    (v.set c x).get c = x := by rw [get_set, if_pos rfl]

theorem PerChan.get_set_ne {α : Type} (v : PerChan α) {c d : Chan} (x : α) (h : d ≠ c) :
    (v.set c x).get d = v.get d := by rw [get_set, if_neg h]

@[simp] theorem PerChan.set_get {α : Type} (v : PerChan α) (c : Chan) : v.set c (v.get c) = v := by
  fin_cases c <;> rfl

@[simp] theorem PerChan.set_set {α : Type} (v : PerChan α) (c : Chan) (x y : α) :
    (v.set c x).set c y = v.set c y := by
  fin_cases c <;> rfl

theorem PerChan.set_comm {α : Type} (v : PerChan α) {c d : Chan} (x y : α) (h : c ≠ d) :
    (v.set c x).set d y = (v.set d y).set c x := by
  fin_cases c <;> fin_cases d <;> first | rfl | exact absurd rfl h

@[simp] theorem PerChan.get_tabulate {α : Type} (f : Chan → α) (c : Chan) :
    (PerChan.tabulate f).get c = f c := by
  fin_cases c <;> rfl

theorem PerChan.modify_eq_set {α : Type} (v : PerChan α) (c : Chan) (f : α → α) :
    v.modify c f = v.set c (f (v.get c)) := by
  fin_cases c <;> rfl

@[simp] theorem PerChan.get_modify_same {α : Type} (v : PerChan α) (c : Chan) (f : α → α) :
    (v.modify c f).get c = f (v.get c) := by rw [modify_eq_set, get_set_same]

theorem PerChan.get_modify_ne {α : Type} (v : PerChan α) {c d : Chan} (f : α → α) (h : d ≠ c) :
    (v.modify c f).get d = v.get d := by rw [modify_eq_set, get_set_ne _ _ h]

theorem PerChan.ext_get {α : Type} {v w : PerChan α} (h : ∀ c, v.get c = w.get c) : v = w := by
  obtain ⟨a, b, c, d⟩ := v
  obtain ⟨a', b', c', d'⟩ := w
  have h0 := h 0; have h1 := h 1; have h2 := h 2; have h3 := h 3
  simp only [get] at h0 h1 h2 h3
  simp [h0, h1, h2, h3]

namespace Machine

/-! ### One channel changed -/

@[simp] theorem chan_modChan_same (s : State) (c : Chan) (f : Channel → Channel) :
    (s.modChan c f).chan c = f (s.chan c) := PerChan.get_modify_same _ _ _

theorem chan_modChan_ne (s : State) {c d : Chan} (f : Channel → Channel) (h : d ≠ c) :
    (s.modChan c f).chan d = s.chan d := PerChan.get_modify_ne _ _ h

theorem modChan_eq (s : State) (c : Chan) (f : Channel → Channel) :
    s.modChan c f = { s with ch := s.ch.set c (f (s.ch.get c)) } := by
  rw [State.modChan, PerChan.modify_eq_set]

@[simp] theorem modChan_cfg (s : State) (c : Chan) (f : Channel → Channel) : (s.modChan c f).cfg = s.cfg := rfl
@[simp] theorem modChan_fg (s : State) (c : Chan) (f : Channel → Channel) : (s.modChan c f).fg = s.fg := rfl
@[simp] theorem modChan_resp (s : State) (c : Chan) (f : Channel → Channel) : (s.modChan c f).resp = s.resp := rfl
@[simp] theorem modChan_pins (s : State) (c : Chan) (f : Channel → Channel) : (s.modChan c f).pins = s.pins := rfl
@[simp] theorem modChan_intc (s : State) (c : Chan) (f : Channel → Channel) : (s.modChan c f).intc = s.intc := rfl
@[simp] theorem modChan_extlog (s : State) (c : Chan) (f : Channel → Channel) : (s.modChan c f).extlog = s.extlog := rfl
@[simp] theorem modChan_responses (s : State) (c : Chan) (f : Channel → Channel) : (s.modChan c f).responses = s.responses := rfl
@[simp] theorem modChan_port (s : State) (c : Chan) (f : Channel → Channel) : (s.modChan c f).port = s.port := rfl
@[simp] theorem modChan_sched (s : State) (c : Chan) (f : Channel → Channel) : (s.modChan c f).sched = s.sched := rfl
@[simp] theorem modChan_draws (s : State) (c : Chan) (f : Channel → Channel) : (s.modChan c f).draws = s.draws := rfl

/-! ### The named updates, each as one record update -/

theorem setRb_eq (c : Chan) (rb : Rb) (s : State) :
    setRb c rb s = { s with ch := s.ch.set c { s.ch.get c with rb := rb } } := modChan_eq _ _ _
theorem setRbOut_eq (c : Chan) (r : RbResult) (s : State) :
    setRbOut c r s = { s with ch := s.ch.set c { s.ch.get c with rbOut := r } } := modChan_eq _ _ _
theorem modPer_eq (c : Chan) (f : Periph → Periph) (s : State) :
    modPer c f s = { s with ch := s.ch.set c { s.ch.get c with per := f (s.ch.get c).per } } := modChan_eq _ _ _
theorem regWrite_eq (c : Chan) (v : RegVal) (s : State) :
    regWrite c v s = { s with
      ch := s.ch.set c { s.ch.get c with
        per := writeEffect v (s.ch.get c).per, line := (s.ch.get c).line ++ lineGain v },
      extlog := s.extlog ++ [.regWrite c v] } := by
  rw [regWrite, modChan_eq]; rfl
theorem readRhr_eq (c : Chan) (s : State) :
    readRhr c s = { s with
      ch := s.ch.set c { s.ch.get c with per := { (s.ch.get c).per with rxrdy := false } },
      extlog := s.extlog ++ [.readRhr c (rhrValue c s)],
      draws := if (s.chan c).per.rxrdy then s.draws else s.draws + 1 } := by
  rw [readRhr, modPer_eq]; rfl

/-- A command that responds while the foreground is idle changes the response alone. -/
theorem respond_idle {s : State} (h : s.fg = .idle) (st : Status) (d : Half) :
    respond st d s = { s with resp := ⟨st, d⟩, responses := s.responses ++ [⟨st, d⟩] } := by
  simp [respond, h]

/-- The status read and the THR write of a transmit step, with TXRDY set. -/
theorem tx_readSr {c : Chan} {s : State} (b : Byte) (h : (s.ch.get c).per.txrdy = true) :
    tx c b (readSr c s) = { s with
      ch := s.ch.set c { s.ch.get c with
        per := { (s.ch.get c).per with txrdy := false }, line := (s.ch.get c).line ++ [b] },
      extlog := s.extlog ++ [.readSr c (s.ch.get c).per.rxrdy true, .regWrite c (.thr b)] } := by
  rw [tx, regWrite_eq]
  simp [readSr, logAccess, writeEffect, lineGain, State.chan, h]

/-! ### The other fields replaced: the channels stay -/

@[simp] theorem chan_fg_update (s : State) (x : Fg) (c : Chan) : ({ s with fg := x } : State).chan c = s.chan c := rfl
@[simp] theorem chan_draws_update (s : State) (x : Nat) (c : Chan) :
    ({ s with draws := x } : State).chan c = s.chan c := rfl
@[simp] theorem chan_port_update (s : State) (x : List Byte) (c : Chan) :
    ({ s with port := x } : State).chan c = s.chan c := rfl
@[simp] theorem chan_sched_update (s : State) (x : List Event) (c : Chan) :
    ({ s with sched := x } : State).chan c = s.chan c := rfl
@[simp] theorem chan_intc_update (s : State) (x : List Nat) (c : Chan) :
    ({ s with intc := x } : State).chan c = s.chan c := rfl

/-! ### Responses -/

@[simp] theorem respond_chan (st : Status) (d : Half) (s : State) (c : Chan) :
    (respond st d s).chan c = s.chan c := rfl
@[simp] theorem respond_cfg (st : Status) (d : Half) (s : State) : (respond st d s).cfg = s.cfg := rfl
@[simp] theorem respond_fg (st : Status) (d : Half) (s : State) : (respond st d s).fg = .idle := rfl
@[simp] theorem respond_resp (st : Status) (d : Half) (s : State) : (respond st d s).resp = ⟨st, d⟩ := rfl
@[simp] theorem respond_responses (st : Status) (d : Half) (s : State) :
    (respond st d s).responses = s.responses ++ [⟨st, d⟩] := rfl
@[simp] theorem respond_pins (st : Status) (d : Half) (s : State) : (respond st d s).pins = s.pins := rfl
@[simp] theorem respond_intc (st : Status) (d : Half) (s : State) : (respond st d s).intc = s.intc := rfl
@[simp] theorem respond_extlog (st : Status) (d : Half) (s : State) : (respond st d s).extlog = s.extlog := rfl
@[simp] theorem respond_port (st : Status) (d : Half) (s : State) : (respond st d s).port = s.port := rfl
@[simp] theorem respond_sched (st : Status) (d : Half) (s : State) : (respond st d s).sched = s.sched := rfl
@[simp] theorem respond_draws (st : Status) (d : Half) (s : State) : (respond st d s).draws = s.draws := rfl

/-! ### Log entries -/

@[simp] theorem logAccess_chan (a : Access) (s : State) (c : Chan) : (logAccess a s).chan c = s.chan c := rfl
@[simp] theorem logAccess_cfg (a : Access) (s : State) : (logAccess a s).cfg = s.cfg := rfl
@[simp] theorem logAccess_fg (a : Access) (s : State) : (logAccess a s).fg = s.fg := rfl
@[simp] theorem logAccess_resp (a : Access) (s : State) : (logAccess a s).resp = s.resp := rfl
@[simp] theorem logAccess_pins (a : Access) (s : State) : (logAccess a s).pins = s.pins := rfl
@[simp] theorem logAccess_intc (a : Access) (s : State) : (logAccess a s).intc = s.intc := rfl
@[simp] theorem logAccess_extlog (a : Access) (s : State) : (logAccess a s).extlog = s.extlog ++ [a] := rfl
@[simp] theorem logAccess_responses (a : Access) (s : State) : (logAccess a s).responses = s.responses := rfl
@[simp] theorem logAccess_port (a : Access) (s : State) : (logAccess a s).port = s.port := rfl
@[simp] theorem logAccess_sched (a : Access) (s : State) : (logAccess a s).sched = s.sched := rfl
@[simp] theorem logAccess_draws (a : Access) (s : State) : (logAccess a s).draws = s.draws := rfl

end Machine
end Sys2Proof
end

