-- ==== Sys2Proof/Laws/RingBuffer.lean ====
section
/-! SUPPORT. The ring buffer operations keep the invariant of 10_state.md R15, and on the bytes held they are the
operations of a bounded queue (40_ringbuffer.md R80, R81). -/

namespace Sys2Proof
namespace Machine

/-! ### Index arithmetic (20_memory.md R52) -/

theorem nxt_lt {n : Nat} (h : 0 < n) (i : Nat) : nxt n i < n := Nat.mod_lt _ h

/-- The explicit form of the wrap: `0` if `i == N - 1` and `i + 1` otherwise. -/
theorem nxt_eq {n i : Nat} (h : i < n) : nxt n i = if i + 1 = n then 0 else i + 1 := by
  unfold nxt
  split
  · simp_all
  · exact Nat.mod_eq_of_lt (by omega)

/-- A sum of two indices modulo `n` wraps at most once. -/
theorem add_index_mod {a b n : Nat} (ha : a < n) (hb : b < n) :
    (a + b) % n = if a + b < n then a + b else a + b - n := by
  split
  · exact Nat.mod_eq_of_lt ‹_›
  · rw [Nat.mod_eq_sub_mod (by omega), Nat.mod_eq_of_lt (by omega)]

/-- The position of the newest byte from that of the oldest and the count (10_state.md R15 (c)). -/
theorem tail_index {h k n : Nat} (hh : h < n) (hk : k < n) :
    (h + k + (n - 1)) % n = if h + k = 0 then n - 1 else if h + k ≤ n then h + k - 1 else h + k - 1 - n := by
  split
  · rw [Nat.mod_eq_of_lt (by omega)]; omega
  · rw [Nat.mod_eq_sub_mod (by omega)]
    split
    · rw [Nat.mod_eq_of_lt (by omega)]; omega
    · rw [Nat.mod_eq_sub_mod (by omega), Nat.mod_eq_of_lt (by omega)]; omega

/-! ### What the bytes held are -/

theorem getElem?_filterMap_range {α : Type} (f : Nat → Option α) (k : Nat)
    (h : ∀ i < k, (f i).isSome = true) (i : Nat) :
    ((List.range k).filterMap f)[i]? = if i < k then f i else none := by
  have hmap : ((List.range k).filterMap f).map some = (List.range k).map f := by
    induction k with
    | zero => rfl
    | succ k ih =>
      obtain ⟨x, hx⟩ := Option.isSome_iff_exists.1 (h k (by omega))
      rw [List.range_succ, List.filterMap_append, List.map_append, List.map_append,
        ih (fun i hi => h i (by omega))]
      simp [hx]
  have hi := congrArg (·[i]?) hmap
  simp only [List.getElem?_map] at hi
  by_cases hik : i < k
  · obtain ⟨x, hx⟩ := Option.isSome_iff_exists.1 (h i hik)
    simp only [List.getElem?_range hik, Option.map_some, hx] at hi
    rw [if_pos hik, hx]
    cases hg : (List.filterMap f (List.range k))[i]? <;> simp_all
  · simp only [List.getElem?_eq_none (by simpa using hik : (List.range k).length ≤ i)] at hi
    rw [if_neg hik]
    simpa using hi

theorem getElem?_contents {n : Nat} {rb : Rb} (h : rb.Wf n) (i : Nat) :
    (contents n rb)[i]? = if i < rb.count then getCell rb.store ((rb.head + i) % n) else none :=
  getElem?_filterMap_range _ _ h.2.2.2.2.2.2 i

theorem length_contents {n : Nat} {rb : Rb} (h : rb.Wf n) : (contents n rb).length = rb.count := by
  apply le_antisymm
  · exact List.getElem?_eq_none_iff.1 (by rw [getElem?_contents h]; simp)
  · by_contra hlt
    have h1 : (contents n rb)[(contents n rb).length]? = none := List.getElem?_eq_none (le_refl _)
    rw [getElem?_contents h, if_pos (by omega)] at h1
    have := h.2.2.2.2.2.2 _ (by omega : (contents n rb).length < rb.count)
    simp [h1] at this

/-! ### RB.ENQUEUE -/

/-- RB.ENQUEUE always completes (40_ringbuffer.md R80). -/
theorem enqueue_eq {n : Nat} (hn : 0 < n) (b : Byte) (rb : Rb) :
    enqueue n b rb = some
      (if rb.count = n - 1 then
        { store := setCell rb.store (nxt n rb.tail) b, head := nxt n rb.head, tail := nxt n rb.tail, count := rb.count }
      else
        { store := setCell rb.store (nxt n rb.tail) b, head := rb.head, tail := nxt n rb.tail,
          count := rb.count + 1 }) := by
  simp [enqueue, memWrite, nxt_lt hn]

/-- The element RB.ENQUEUE writes is the one after the valid bytes. -/
theorem nxt_tail {n : Nat} {rb : Rb} (h : rb.Wf n) : nxt n rb.tail = (rb.head + rb.count) % n := by
  obtain ⟨-, -, hh, ht, hc, ht', -⟩ := h
  rw [nxt_eq ht, add_index_mod hh hc, ht', tail_index hh hc]
  split_ifs <;> omega

theorem enqueue_wf {n : Nat} {rb rb' : Rb} (hn : 2 ≤ n) (h : rb.Wf n) {b : Byte} (he : enqueue n b rb = some rb') :
    rb'.Wf n := by
  have hnt := nxt_tail h
  obtain ⟨hw, hlt, hh, ht, hc, ht', hv⟩ := h
  have htl := nxt_lt (by omega : 0 < n) rb.tail
  rw [enqueue_eq (by omega)] at he
  simp only [Option.some.injEq] at he
  subst he
  split
  · next hfull =>
    refine ⟨keysRise_setCell hw _ _, keys_lt_setCell hlt htl _, nxt_lt (by omega) _, htl, hc, ?_, ?_⟩
    · simp only
      rw [hnt, add_index_mod hh hc, nxt_eq hh, tail_index (by split <;> omega) hc]
      split_ifs <;> omega
    · intro i hi
      simp only at hi ⊢
      rw [getCell_setCell]
      split
      · rfl
      · next hne =>
        rw [hnt] at hne
        have h1 := hv (i + 1)
        rw [nxt_eq hh] at hne ⊢
        rw [add_index_mod hh hc, add_index_mod (by split <;> omega) (by omega)] at hne
        rw [add_index_mod (by split <;> omega) (by omega)]
        have h2 : i + 1 < rb.count := by split_ifs at hne <;> omega
        have h3 := h1 h2
        rw [add_index_mod hh (by omega)] at h3
        have : (if (if rb.head + 1 = n then 0 else rb.head + 1) + i < n then (if rb.head + 1 = n then 0 else rb.head + 1) + i
            else (if rb.head + 1 = n then 0 else rb.head + 1) + i - n) =
          (if rb.head + (i + 1) < n then rb.head + (i + 1) else rb.head + (i + 1) - n) := by
          split_ifs <;> omega
        rw [this]; exact h3
  · next hfull =>
    refine ⟨keysRise_setCell hw _ _, keys_lt_setCell hlt htl _, hh, htl, by simp only; omega, ?_, ?_⟩
    · simp only
      rw [hnt, add_index_mod hh hc]
      by_cases hz : rb.count + 1 = n
      · omega
      · rw [tail_index hh (by omega : rb.count + 1 < n)]
        rw [if_neg (by omega : ¬ rb.head + (rb.count + 1) = 0)]; split_ifs <;> omega
    · intro i hi
      simp only at hi ⊢
      rw [getCell_setCell]
      split
      · rfl
      · next hne =>
        rw [hnt] at hne
        have : i ≠ rb.count := fun e => hne (by rw [e])
        exact hv i (by omega)

/-- On the bytes held, RB.ENQUEUE drops the oldest where the buffer is full and appends the new byte
(40_ringbuffer.md R80, R85). -/
theorem contents_enqueue {n : Nat} {rb rb' : Rb} (hn : 2 ≤ n) (h : rb.Wf n) {b : Byte}
    (he : enqueue n b rb = some rb') :
    contents n rb' = (if rb.count = n - 1 then (contents n rb).tail else contents n rb) ++ [b] := by
  have hwf' := enqueue_wf hn h he
  have hlen := length_contents h
  have hnt := nxt_tail h
  have hget := getElem?_contents h
  apply List.ext_getElem?
  intro i
  rw [getElem?_contents hwf']
  obtain ⟨hw, hlt, hh, ht, hc, ht', hv⟩ := h
  rw [enqueue_eq (by omega)] at he
  simp only [Option.some.injEq] at he
  subst he
  split
  · next hfull =>
    simp only
    rw [List.getElem?_append, List.length_tail, hlen, List.getElem?_tail, hget, getCell_setCell, hnt,
      nxt_eq hh, add_index_mod hh hc]
    by_cases hi : i < rb.count
    · rw [if_pos hi, add_index_mod (by split <;> omega) (by omega)]
      by_cases hi2 : i < rb.count - 1
      · rw [if_pos hi2, if_pos (by omega : i + 1 < rb.count), add_index_mod hh (by omega), if_neg]
        · congr 1; split_ifs <;> omega
        · split_ifs <;> omega
      · rw [if_neg hi2, if_pos]
        · rw [show i - (rb.count - 1) = 0 by omega]; rfl
        · split_ifs <;> omega
    · rw [if_neg hi, if_neg (by omega)]
      rw [List.getElem?_eq_none (by simp; omega)]
  · next hfull =>
    simp only
    rw [List.getElem?_append, hlen, hget, getCell_setCell, hnt]
    by_cases hi : i < rb.count
    · rw [if_pos (by omega), if_pos hi, if_pos hi, if_neg]
      rw [add_index_mod hh (by omega), add_index_mod hh hc]
      split_ifs <;> omega
    · rw [if_neg hi]
      by_cases hi2 : i = rb.count
      · subst hi2; simp
      · rw [if_neg (by omega), List.getElem?_eq_none (by simp; omega)]

/-! ### RB.DEQUEUE -/

/-- RB.DEQUEUE on a buffer that is not empty returns the oldest byte and advances `head` (40_ringbuffer.md R81). -/
theorem dequeue_eq {n : Nat} {rb : Rb} (h : rb.Wf n) (c : Chan) (hc : rb.count ≠ 0) :
    ∃ v, getCell rb.store rb.head = some v ∧
      dequeue c n rb = some (v, { rb with head := nxt n rb.head, count := rb.count - 1 }) := by
  obtain ⟨-, -, hh, -, -, -, hv⟩ := h
  have h0 := hv 0 (by omega)
  rw [Nat.add_zero, Nat.mod_eq_of_lt hh] at h0
  obtain ⟨v, hv⟩ := Option.isSome_iff_exists.1 h0
  exact ⟨v, hv, by simp [dequeue, memRead, hh, hv]⟩

theorem dequeue_wf {n : Nat} {rb rb' : Rb} {c : Chan} {v : Byte} (h : rb.Wf n) (hc0 : rb.count ≠ 0)
    (hd : dequeue c n rb = some (v, rb')) : rb'.Wf n := by
  obtain ⟨w, -, he⟩ := dequeue_eq h c hc0
  obtain ⟨hw, hlt, hh, ht, hc, ht', hv⟩ := h
  rw [he] at hd
  simp only [Option.some.injEq, Prod.mk.injEq] at hd
  obtain ⟨-, rfl⟩ := hd
  refine ⟨hw, hlt, nxt_lt (by omega) _, ht, by simp only; omega, ?_, fun i hi => ?_⟩
  · simp only
    rw [ht', nxt_eq hh, tail_index hh hc, tail_index (by split <;> omega) (by omega)]
    split_ifs <;> omega
  · simp only at hi ⊢
    have h1 := hv (i + 1) (by omega)
    rw [add_index_mod hh (by omega)] at h1
    rw [nxt_eq hh, add_index_mod (by split <;> omega) (by omega)]
    convert h1 using 3
    split_ifs <;> omega

/-- On the bytes held, RB.DEQUEUE takes off the oldest (40_ringbuffer.md R81). -/
theorem contents_dequeue {n : Nat} {rb rb' : Rb} {c : Chan} {v : Byte} (h : rb.Wf n) (hc0 : rb.count ≠ 0)
    (hd : dequeue c n rb = some (v, rb')) : contents n rb = v :: contents n rb' := by
  have hwf' := dequeue_wf h hc0 hd
  obtain ⟨w, hw0, he⟩ := dequeue_eq h c hc0
  have hget := getElem?_contents h
  rw [he] at hd
  simp only [Option.some.injEq, Prod.mk.injEq] at hd
  obtain ⟨rfl, rfl⟩ := hd
  obtain ⟨-, -, hh, -, hc, -, -⟩ := h
  apply List.ext_getElem?
  intro i
  rw [hget]
  cases i with
  | zero => rw [if_pos (by omega)]; simp [hw0, Nat.mod_eq_of_lt hh]
  | succ i =>
    rw [List.getElem?_cons_succ, getElem?_contents hwf']
    simp only
    by_cases hi : i + 1 < rb.count
    · rw [if_pos hi, if_pos (by omega), add_index_mod hh (by omega), nxt_eq hh,
        add_index_mod (by split <;> omega) (by omega)]
      congr 1
      split_ifs <;> omega
    · rw [if_neg hi, if_neg (by omega)]

/-- The buffer after reset satisfies the invariant and is empty (10_state.md R12 to R14, R33). -/
theorem reset_wf {n : Nat} (hn : 2 ≤ n) : (Rb.reset n).Wf n := by
  refine ⟨List.Pairwise.nil, by simp [Rb.reset], by simp [Rb.reset]; omega, by simp [Rb.reset]; omega,
    by simp [Rb.reset]; omega, ?_, by simp [Rb.reset]⟩
  simp only [Rb.reset, Nat.zero_add]
  rw [Nat.mod_eq_of_lt (by omega)]

/-- The store of a ring buffer keeps its canonical form under its one writing operation. -/
theorem memWrite_wf {n i : Nat} {m m' : Memory} {v : Byte} (h : Memory.wf m) (hm : memWrite n m i v = some m') :
    Memory.wf m' := by
  unfold memWrite at hm
  split at hm
  · injection hm with hm; exact hm ▸ keysRise_setCell h i v
  · cases hm

/-- Every store of the reset state has the canonical form. -/
theorem resetWith_memory_wf (k : Config) (u : PerChan PowerOn) (c : Chan) :
    Memory.wf ((State.resetWith k u).chan c).rb.store := by
  simp [State.resetWith, State.chan, Channel.reset, Rb.reset, Memory.wf, keysRise]

/-- A read after a write inside the space: the byte written at its own index, what was there before at every other. -/
theorem memRead_setCell (c : Chan) {n a b : Nat} (m : Memory) (v : Byte) (ha : a < n) :
    memRead c n (setCell m a v) b = if b = a then some v else memRead c n m b := by
  simp only [memRead, getCell_setCell]
  by_cases h : b = a
  · subst h; simp [ha]
  · simp [h]

end Machine
end Sys2Proof
end

