-- ==== Sys2Proof/Laws/Ops.lean ====
section
/-! SUPPORT. What each shared operation can do, said once: if it answers a next state, that state is one of these. -/

namespace Sys2Proof
namespace Machine

variable {s t : State} {c : Chan} {b v : Byte}

/-! ### Accepting a command -/

theorem accept_idle (k : State → Result) (h : s.fg = .idle) : accept s k = k s := by
  simp [accept, h]

theorem accept_busy (k : State → Result) (h : s.fg ≠ .idle) : accept s k = .next s := by
  unfold accept; split <;> simp_all

theorem whenRunning_running (k : State → Result) (h : s.fg = .idle) (hr : (s.chan c).st = .running) :
    whenRunning c s k = k s := by
  simp [whenRunning, accept_idle _ h, hr]

theorem whenRunning_not_running (k : State → Result) (h : s.fg = .idle) (hr : (s.chan c).st ≠ .running) :
    whenRunning c s k = .next (raise .notConfigured s) := by
  unfold whenRunning
  rw [accept_idle _ h]
  split <;> simp_all

theorem whenRunning_next {k : State → Result} (h : whenRunning c s k = .next t) :
    (s.fg ≠ .idle ∧ t = s) ∨
    (s.fg = .idle ∧ (s.chan c).st ≠ .running ∧ t = respond .notConfigured 0 s) ∨
    (s.fg = .idle ∧ (s.chan c).st = .running ∧ k s = .next t) := by
  by_cases hf : s.fg = .idle
  · by_cases hr : (s.chan c).st = .running
    · rw [whenRunning_running k hf hr] at h
      exact .inr (.inr ⟨hf, hr, h⟩)
    · rw [whenRunning_not_running k hf hr] at h
      exact .inr (.inl ⟨hf, hr, by injection h with h; exact h.symm⟩)
  · rw [whenRunning, accept_busy _ hf] at h
    exact .inl ⟨hf, by injection h with h; exact h.symm⟩

/-! ### The ring buffer of a channel -/

/-- Where RB.ENQUEUE answers, the buffer is what 40_ringbuffer.md R80 says and nothing else changes. -/
theorem enqueueOn_next (h : enqueueOn c b s = .next t) :
    ∃ rb, enqueue s.cfg.n b (s.chan c).rb = some rb ∧ t = setRb c rb s := by
  unfold enqueueOn at h
  split at h
  · cases h
  · next rb he => exact ⟨rb, he, by injection h with h; exact h.symm⟩

theorem enqueueOn_eq (hn : 0 < s.cfg.n) :
    ∃ rb, enqueue s.cfg.n b (s.chan c).rb = some rb ∧ enqueueOn c b s = .next (setRb c rb s) := by
  refine ⟨_, enqueue_eq hn b _, ?_⟩
  unfold enqueueOn
  rw [enqueue_eq hn]

theorem dequeueOn_empty (f : State → State) (g : Byte → State → State) (h : (s.chan c).rb.count = 0) :
    dequeueOn c s f g = .next (f s) := by
  simp [dequeueOn, h]

/-- Where RB.DEQUEUE answers, it found the buffer empty, or took off the byte at `head` (40_ringbuffer.md R81). -/
theorem dequeueOn_next {f : State → State} {g : Byte → State → State} (h : dequeueOn c s f g = .next t) :
    ((s.chan c).rb.count = 0 ∧ t = f s) ∨
    ((s.chan c).rb.count ≠ 0 ∧ ∃ v rb, dequeue c s.cfg.n (s.chan c).rb = some (v, rb) ∧ t = g v (setRb c rb s)) := by
  unfold dequeueOn at h
  split at h
  · next h0 => exact .inl ⟨h0, by injection h with h; exact h.symm⟩
  · next h0 =>
    split at h
    · cases h
    · next v rb hd => exact .inr ⟨h0, v, rb, hd, by injection h with h; exact h.symm⟩

theorem dequeueOn_eq (f : State → State) (g : Byte → State → State) (hw : (s.chan c).rb.Wf s.cfg.n)
    (h : (s.chan c).rb.count ≠ 0) :
    ∃ v, getCell (s.chan c).rb.store (s.chan c).rb.head = some v ∧
      dequeueOn c s f g = .next (g v (setRb c { (s.chan c).rb with
        head := nxt s.cfg.n (s.chan c).rb.head, count := (s.chan c).rb.count - 1 } s)) := by
  obtain ⟨v, hv, he⟩ := dequeue_eq hw c h
  exact ⟨v, hv, by simp [dequeueOn, h, he]⟩

/-- A dequeue that answers leaves the store and `tail` alone. -/
theorem dequeue_frame {n : Nat} {rb rb' : Rb} (h : dequeue c n rb = some (v, rb')) :
    rb' = { rb with head := nxt n rb.head, count := rb.count - 1 } := by
  unfold dequeue at h
  split at h
  · cases h
  · simp_all

/-- Where PUSH_RECEIVED answers, it is the enqueue on a Running channel, and nothing on any other (41_port_driver.md
R104). -/
theorem pushOn_next (h : pushOn c b s = .next t) :
    ((s.chan c).st = .running ∧ ∃ rb, enqueue s.cfg.n b (s.chan c).rb = some rb ∧ t = setRb c rb s) ∨
    ((s.chan c).st ≠ .running ∧ t = s) := by
  unfold pushOn at h
  split at h
  · next hr => exact .inl ⟨hr, enqueueOn_next h⟩
  · next hr => exact .inr ⟨by simp [hr], by injection h with h; exact h.symm⟩
  · next hr => exact .inr ⟨by simp [hr], by injection h with h; exact h.symm⟩

theorem pushOn_running (h : (s.chan c).st = .running) : pushOn c b s = enqueueOn c b s := by simp [pushOn, h]

theorem pushOn_not_running (h : (s.chan c).st ≠ .running) : pushOn c b s = .next s := by
  unfold pushOn; split <;> simp_all

/-! ### Transmission -/

/-- What starting to send can do: nothing to send responds, otherwise the bytes are in flight. -/
theorem startSending_cases (L : List Byte) (s : State) :
    (L = [] ∧ startSending c L s = respond .ok 0 s) ∨
    (∃ b rest, L = b :: rest ∧ startSending c L s = { s with fg := .sending c b rest }) := by
  cases L with
  | nil => exact .inl ⟨rfl, rfl⟩
  | cons b rest => exact .inr ⟨b, rest, rfl, rfl⟩

/-- The search for a width finds the least one: provers cite it for the digits of WRITE_UDEC and for IDXW. -/
theorem leastDigits_spec {base v fuel start : Nat} (hs : 1 ≤ start)
    (hlow : ∀ m, 1 ≤ m → m < start → ¬ v < base ^ m) (hv : v < base ^ (start + fuel)) :
    v < base ^ leastDigits base v fuel start ∧ (∀ m, 1 ≤ m → v < base ^ m → leastDigits base v fuel start ≤ m) ∧
    start ≤ leastDigits base v fuel start ∧ leastDigits base v fuel start ≤ start + fuel := by
  induction fuel generalizing start with
  | zero =>
    exact ⟨hv, fun m h1 h2 => by by_contra h; exact hlow m h1 (by simpa [leastDigits] using h) h2, le_refl _, le_refl _⟩
  | succ f ih =>
    unfold leastDigits
    split
    · next h => exact ⟨h, fun m h1 h2 => by by_contra h3; exact hlow m h1 (by omega) h2, le_refl _, by omega⟩
    · next h =>
      obtain ⟨h1, h2, h3, h4⟩ := ih (start := start + 1) (by omega)
        (fun m hm1 hm2 => by rcases Nat.lt_succ_iff_lt_or_eq.1 hm2 with h' | rfl <;> [exact hlow m hm1 h'; exact h])
        (by rwa [show start + 1 + f = start + (f + 1) from by omega])
      exact ⟨h1, h2, by omega, by omega⟩

/-- Over the legal range of `N`, a number below `N` fits in IDXW bits. -/
theorem lt_two_pow_idxWidth {n i : Nat} (hn : n ≤ 65536) (h : i < n) : i < 2 ^ idxWidth n := by
  have := (leastDigits_spec (base := 2) (v := n - 1) (fuel := 15) (start := 1) (le_refl _) (by omega) (by omega)).1
  unfold idxWidth
  omega

theorem digitBytes_ne_nil (v : Word) : udecBytes v ≠ [] ∧ hexBytes v ≠ [] := by
  constructor
  · unfold udecBytes
    split
    · simp
    · have := (leastDigits_spec (base := 10) (v := v.toNat) (fuel := 9) (start := 1) (le_refl _) (by omega)
        (by have := v.isLt; omega)).2.2.1
      simp only [ne_eq, List.map_eq_nil_iff, List.range_eq_nil, digitCount]
      omega
  · simp [hexBytes]

/-! ### The collaborators -/

@[simp] theorem setRb_chan_same (rb : Rb) : (setRb c rb s).chan c = { s.chan c with rb := rb } := by simp [setRb]
theorem setRb_chan_ne (rb : Rb) {d : Chan} (h : d ≠ c) : (setRb c rb s).chan d = s.chan d := by
  simp [setRb, chan_modChan_ne _ _ h]
@[simp] theorem setRbOut_chan_same (r : RbResult) : (setRbOut c r s).chan c = { s.chan c with rbOut := r } := by
  simp [setRbOut]
theorem setRbOut_chan_ne (r : RbResult) {d : Chan} (h : d ≠ c) : (setRbOut c r s).chan d = s.chan d := by
  simp [setRbOut, chan_modChan_ne _ _ h]
@[simp] theorem setSt_chan_same (x : ChanState) : (setSt c x s).chan c = { s.chan c with st := x } := by simp [setSt]
theorem setSt_chan_ne (x : ChanState) {d : Chan} (h : d ≠ c) : (setSt c x s).chan d = s.chan d := by
  simp [setSt, chan_modChan_ne _ _ h]
@[simp] theorem setBaud_chan_same (x : Half) : (setBaud c x s).chan c = { s.chan c with baud := x } := by simp [setBaud]
theorem setBaud_chan_ne (x : Half) {d : Chan} (h : d ≠ c) : (setBaud c x s).chan d = s.chan d := by
  simp [setBaud, chan_modChan_ne _ _ h]
@[simp] theorem regWrite_chan_same (r : RegVal) :
    (regWrite c r s).chan c = { s.chan c with
      per := writeEffect r (s.chan c).per, line := (s.chan c).line ++ lineGain r } := by
  simp [regWrite]
theorem regWrite_chan_ne (r : RegVal) {d : Chan} (h : d ≠ c) : (regWrite c r s).chan d = s.chan d := by
  simp [regWrite, chan_modChan_ne _ _ h]
@[simp] theorem readRhr_chan_same :
    (readRhr c s).chan c = { s.chan c with per := { (s.chan c).per with rxrdy := false } } := by
  simp [readRhr, modPer, State.chan, State.modChan, logAccess]
theorem readRhr_chan_ne {d : Chan} (h : d ≠ c) : (readRhr c s).chan d = s.chan d := by
  simp [readRhr, modPer, State.chan, State.modChan, logAccess, PerChan.get_modify_ne _ _ h]
@[simp] theorem readSr_chan (d : Chan) : (readSr c s).chan d = s.chan d := rfl

/-! ### The pins -/

theorem pinGet_modPin (q q' : Nat) (f : Pin → Pin) :
    pinGet q' (modPin q f s) = if q' = q then f (pinGet q s) else pinGet q' s := by
  simp only [modPin, pinGet, getCell_setCell]
  split <;> simp

theorem pinGet_pinRelease (q q' : Nat) :
    pinGet q' (pinRelease c q s) = if q' = q then { pinGet q s with owner := .periph } else pinGet q' s :=
  pinGet_modPin (s := s) q q' (fun x => { x with owner := .periph })

theorem pinGet_pinGroup (q q' : Nat) (g : PinGroup) :
    pinGet q' (pinGroup c q g s) = if q' = q then { pinGet q s with group := g } else pinGet q' s :=
  pinGet_modPin (s := s) q q' (fun x => { x with group := g })

theorem pinGet_pinPullup (q q' : Nat) :
    pinGet q' (pinPullup c q s) = if q' = q then { pinGet q s with pullup := true } else pinGet q' s :=
  pinGet_modPin (s := s) q q' (fun x => { x with pullup := true })

theorem pinGet_congr {s t : State} (h : t.pins = s.pins) (q : Nat) : pinGet q t = pinGet q s := by
  simp [pinGet, h]

/-! ### What the accesses leave alone -/

@[simp] theorem pinRelease_chan (q : Nat) (d : Chan) : (pinRelease c q s).chan d = s.chan d := rfl
@[simp] theorem pinRelease_cfg (q : Nat) : (pinRelease c q s).cfg = s.cfg := rfl
@[simp] theorem pinRelease_extlog (q : Nat) : (pinRelease c q s).extlog = s.extlog ++ [.pinRelease (descOf c s).pinctl q] := rfl
@[simp] theorem pinRelease_intc (q : Nat) : (pinRelease c q s).intc = s.intc := rfl
theorem keysRise_pinRelease (h : keysRise s.pins) (q : Nat) : keysRise (pinRelease c q s).pins := keysRise_setCell h _ _
@[simp] theorem pinGroup_chan (q : Nat) (g : PinGroup) (d : Chan) : (pinGroup c q g s).chan d = s.chan d := rfl
@[simp] theorem pinGroup_cfg (q : Nat) (g : PinGroup) : (pinGroup c q g s).cfg = s.cfg := rfl
@[simp] theorem pinGroup_extlog (q : Nat) (g : PinGroup) : (pinGroup c q g s).extlog = s.extlog ++ [.pinGroup (descOf c s).pinctl q g] := rfl
@[simp] theorem pinGroup_intc (q : Nat) (g : PinGroup) : (pinGroup c q g s).intc = s.intc := rfl
theorem keysRise_pinGroup (h : keysRise s.pins) (q : Nat) (g : PinGroup) : keysRise (pinGroup c q g s).pins := keysRise_setCell h _ _
@[simp] theorem pinPullup_chan (q : Nat) (d : Chan) : (pinPullup c q s).chan d = s.chan d := rfl
@[simp] theorem pinPullup_cfg (q : Nat) : (pinPullup c q s).cfg = s.cfg := rfl
@[simp] theorem pinPullup_extlog (q : Nat) : (pinPullup c q s).extlog = s.extlog ++ [.pinPullup (descOf c s).pinctl q] := rfl
@[simp] theorem pinPullup_intc (q : Nat) : (pinPullup c q s).intc = s.intc := rfl
theorem keysRise_pinPullup (h : keysRise s.pins) (q : Nat) : keysRise (pinPullup c q s).pins := keysRise_setCell h _ _
@[simp] theorem intcEnable_chan (q : Nat) (d : Chan) : (intcEnable q s).chan d = s.chan d := rfl
@[simp] theorem intcEnable_cfg (q : Nat) : (intcEnable q s).cfg = s.cfg := rfl
@[simp] theorem intcEnable_extlog (q : Nat) : (intcEnable q s).extlog = s.extlog ++ [.intcEnable q] := rfl
@[simp] theorem intcEnable_pins (q : Nat) : (intcEnable q s).pins = s.pins := rfl
@[simp] theorem intcEnable_intc (q : Nat) : (intcEnable q s).intc = addKey s.intc q := rfl
@[simp] theorem setSt_cfg (x : ChanState) : (setSt c x s).cfg = s.cfg := rfl
@[simp] theorem setSt_intc (x : ChanState) : (setSt c x s).intc = s.intc := rfl
@[simp] theorem setSt_pins (x : ChanState) : (setSt c x s).pins = s.pins := rfl
@[simp] theorem setSt_extlog (x : ChanState) : (setSt c x s).extlog = s.extlog := rfl
@[simp] theorem setBaud_cfg (x : Half) : (setBaud c x s).cfg = s.cfg := rfl
@[simp] theorem setBaud_intc (x : Half) : (setBaud c x s).intc = s.intc := rfl
@[simp] theorem setBaud_pins (x : Half) : (setBaud c x s).pins = s.pins := rfl
@[simp] theorem setBaud_extlog (x : Half) : (setBaud c x s).extlog = s.extlog := rfl
@[simp] theorem regWrite_cfg (r : RegVal) : (regWrite c r s).cfg = s.cfg := rfl
@[simp] theorem regWrite_intc (r : RegVal) : (regWrite c r s).intc = s.intc := rfl
@[simp] theorem regWrite_pins (r : RegVal) : (regWrite c r s).pins = s.pins := rfl
@[simp] theorem regWrite_extlog (r : RegVal) : (regWrite c r s).extlog = s.extlog ++ [.regWrite c r] := rfl

/-! ### CONFIGURE -/

/-- The pins after the eight steps. -/
theorem configureSteps_pins (div : Half) (q : Nat) :
    pinGet q (configureSteps c div s) =
      if q = (descOf c s).rxPin ∨ q = (descOf c s).txPin then ⟨.periph, groupOf s.cfg c, true⟩ else pinGet q s := by
  simp only [configureSteps, pinGet_congr (setSt_pins _), pinGet_congr (regWrite_pins _),
    pinGet_congr (intcEnable_pins _), pinGet_congr (setBaud_pins _), pinGet_pinPullup, pinGet_pinGroup,
    pinGet_pinRelease]
  by_cases h1 : q = (descOf c s).rxPin <;> by_cases h2 : q = (descOf c s).txPin <;>
    by_cases h3 : (descOf c s).txPin = (descOf c s).rxPin <;>
    simp_all [eq_comm]

/-- `t` differs from `s` in the channels and the collaborators at most. -/
def foregroundSame (s t : State) : Prop :=
  t.cfg = s.cfg ∧ t.fg = s.fg ∧ t.resp = s.resp ∧ t.responses = s.responses ∧ t.port = s.port ∧
  t.sched = s.sched ∧ t.draws = s.draws

theorem foregroundSame.trans {s t u : State} (h : foregroundSame s t) (k : foregroundSame t u) : foregroundSame s u := by
  obtain ⟨a, b, c, d, e, f, g⟩ := h
  obtain ⟨a', b', c', d', e', f', g'⟩ := k
  exact ⟨a'.trans a, b'.trans b, c'.trans c, d'.trans d, e'.trans e, f'.trans f, g'.trans g⟩

theorem regWrite_fg (r : RegVal) (s : State) : foregroundSame s (regWrite c r s) := ⟨rfl, rfl, rfl, rfl, rfl, rfl, rfl⟩
theorem pinRelease_fg (q : Nat) (s : State) : foregroundSame s (pinRelease c q s) := ⟨rfl, rfl, rfl, rfl, rfl, rfl, rfl⟩
theorem pinGroup_fg (q : Nat) (g : PinGroup) (s : State) : foregroundSame s (pinGroup c q g s) :=
  ⟨rfl, rfl, rfl, rfl, rfl, rfl, rfl⟩
theorem pinPullup_fg (q : Nat) (s : State) : foregroundSame s (pinPullup c q s) := ⟨rfl, rfl, rfl, rfl, rfl, rfl, rfl⟩
theorem intcEnable_fg (q : Nat) (s : State) : foregroundSame s (intcEnable q s) := ⟨rfl, rfl, rfl, rfl, rfl, rfl, rfl⟩
theorem setSt_fg (x : ChanState) (s : State) : foregroundSame s (setSt c x s) := ⟨rfl, rfl, rfl, rfl, rfl, rfl, rfl⟩
theorem setBaud_fg (x : Half) (s : State) : foregroundSame s (setBaud c x s) := ⟨rfl, rfl, rfl, rfl, rfl, rfl, rfl⟩

/-- The eight steps touch the channels and the collaborators only. -/
theorem configureSteps_fg (div : Half) (s : State) : foregroundSame s (configureSteps c div s) := by
  unfold configureSteps
  refine .trans ?_ (setSt_fg _ _)
  refine .trans ?_ (regWrite_fg _ _)
  refine .trans ?_ (setSt_fg _ _)
  refine .trans ?_ (intcEnable_fg _ _)
  refine .trans ?_ (regWrite_fg _ _)
  refine .trans ?_ (setBaud_fg _ _)
  refine .trans ?_ (regWrite_fg _ _)
  refine .trans ?_ (regWrite_fg _ _)
  refine .trans ?_ (pinPullup_fg _ _)
  refine .trans ?_ (pinPullup_fg _ _)
  refine .trans ?_ (pinGroup_fg _ _ _)
  refine .trans ?_ (pinGroup_fg _ _ _)
  refine .trans ?_ (regWrite_fg _ _)
  refine .trans ?_ (pinRelease_fg _ _)
  exact pinRelease_fg _ _

/-- The channel after the eight steps: Running, the peripheral enabled, the ring buffer and the line untouched. -/
theorem configureSteps_chan_same (div : Half) :
    (configureSteps c div s).chan c = { s.chan c with
      st := .running, baud := div,
      per := { (s.chan c).per with
        rxEn := true, txEn := true, rxrdy := false, txrdy := false, ierRxrdy := true, brgr := div,
        mode := modeOf s.cfg c } } := by
  simp [configureSteps, writeEffect, lineGain]

theorem configureSteps_chan_ne (div : Half) {d : Chan} (h : d ≠ c) : (configureSteps c div s).chan d = s.chan d := by
  simp [configureSteps, setSt_chan_ne _ h, setBaud_chan_ne _ h, regWrite_chan_ne _ h]

theorem configureSteps_intc (div : Half) : (configureSteps c div s).intc = addKey s.intc (descOf c s).vector := by
  simp [configureSteps]

theorem configureSteps_keysRise (div : Half) (h : keysRise s.pins) : keysRise (configureSteps c div s).pins := by
  simp only [configureSteps, setSt_pins, regWrite_pins, intcEnable_pins, setBaud_pins]
  apply keysRise_pinPullup
  apply keysRise_pinPullup
  apply keysRise_pinGroup
  apply keysRise_pinGroup
  rw [regWrite_pins]
  apply keysRise_pinRelease
  exact keysRise_pinRelease h _

/-- The log gains the accesses of S1 to S8, in that order. -/
theorem configureSteps_extlog (div : Half) :
    (configureSteps c div s).extlog = s.extlog ++ [
      .pinRelease (descOf c s).pinctl (descOf c s).rxPin, .pinRelease (descOf c s).pinctl (descOf c s).txPin,
      .regWrite c (.ctrl true true false false),
      .pinGroup (descOf c s).pinctl (descOf c s).rxPin (groupOf s.cfg c),
      .pinGroup (descOf c s).pinctl (descOf c s).txPin (groupOf s.cfg c),
      .pinPullup (descOf c s).pinctl (descOf c s).rxPin, .pinPullup (descOf c s).pinctl (descOf c s).txPin,
      .regWrite c (.mode (modeOf s.cfg c)), .regWrite c (.brgr div), .regWrite c (.ier true),
      .intcEnable (descOf c s).vector, .regWrite c (.ctrl false false true true)] := by
  simp [configureSteps, descOf]

end Machine
end Sys2Proof
end

