-- ==== Sys2Proof/Laws/Exec.lean ====
section
/-! SUPPORT. Everything an operation can do, said once: if exec answers a next state, that state is one of the cases of
`ExecNext`. -/

namespace Sys2Proof
namespace Machine

/-- The buffer of the operation's channel after the dispatch hands over byte `b`: enqueued where the channel is
Running, as it was otherwise. -/
def pushedRb (s : State) (c : Chan) (b : Byte) (rb : Rb) : Prop :=
  ((s.chan c).st = .running ∧ enqueue s.cfg.n b (s.chan c).rb = some rb) ∨
  ((s.chan c).st ≠ .running ∧ rb = (s.chan c).rb)

/-- The states operation `i` may leave behind from `s`. -/
inductive ExecNext (i : Instr) (s : State) : State → Prop
  /-- The foreground is busy, the interrupt is not pending, or a push found its channel not Running. -/
  | unchanged : ExecNext i s s
  /-- PENDING_COUNT responds, or a transmit operation with nothing to send. -/
  | completes (d : Half) :
      isCommand i = true → s.fg = .idle → (s.chan (chanOfInstr i)).st = .running →
      (d ≠ 0 → i = .pendingCount (chanOfInstr i)) → ExecNext i s (respond .ok d s)
  /-- A command but CONFIGURE finds its channel not Running. -/
  | notConfigured :
      isCommand i = true → s.fg = .idle → (∀ c d, i ≠ .configure c d) →
      (s.chan (chanOfInstr i)).st ≠ .running → ExecNext i s (respond .notConfigured 0 s)
  /-- CONFIGURE finds its channel not Uninitialized. -/
  | alreadyConfigured (d : Half) :
      i = .configure (chanOfInstr i) d → s.fg = .idle → (s.chan (chanOfInstr i)).st ≠ .uninitialized →
      ExecNext i s (respond .alreadyConfigured 0 s)
  /-- READ_BYTE finds the buffer empty. -/
  | emptyQueue (d : Half) :
      i = .readByte (chanOfInstr i) → s.fg = .idle → (s.chan (chanOfInstr i)).st = .running →
      (s.chan (chanOfInstr i)).rb.count = 0 →
      ExecNext i s (respond .emptyQueue d { s with draws := s.draws + 1 })
  /-- A transmit operation is put in flight. -/
  | starts (f : Fg) :
      isCommand i = true → s.fg = .idle → (s.chan (chanOfInstr i)).st = .running →
      f.target = some (chanOfInstr i) → ExecNext i s { s with fg := f }
  /-- READ_BYTE returns a byte. -/
  | reads (v : Byte) (rb : Rb) :
      i = .readByte (chanOfInstr i) → s.fg = .idle → (s.chan (chanOfInstr i)).rb.count ≠ 0 →
      dequeue (chanOfInstr i) s.cfg.n (s.chan (chanOfInstr i)).rb = some (v, rb) →
      ExecNext i s (respond .ok (v.setWidth 16) (setRb (chanOfInstr i) rb s))
  /-- CONFIGURE runs its eight steps. -/
  | configures (d : Half) :
      i = .configure (chanOfInstr i) d → s.fg = .idle → (s.chan (chanOfInstr i)).st = .uninitialized →
      ExecNext i s (respond .ok 0 (configureSteps (chanOfInstr i) d s))
  /-- RB.ENQUEUE, or a push on a Running channel. -/
  | enqueues (b : Byte) (rb : Rb) :
      i = .rbEnqueue (chanOfInstr i) b ∨
        (i = .pushReceived (chanOfInstr i) b ∧ (s.chan (chanOfInstr i)).st = .running) →
      enqueue s.cfg.n b (s.chan (chanOfInstr i)).rb = some rb → ExecNext i s (setRb (chanOfInstr i) rb s)
  /-- RB.COUNT, or RB.DEQUEUE on an empty buffer. -/
  | answers (r : RbResult) (n : Nat) :
      isCommand i = false → ExecNext i s (setRbOut (chanOfInstr i) r { s with draws := n })
  /-- RB.DEQUEUE returns a byte. -/
  | dequeues (v : Byte) (rb : Rb) :
      i = .rbDequeue (chanOfInstr i) → (s.chan (chanOfInstr i)).rb.count ≠ 0 →
      dequeue (chanOfInstr i) s.cfg.n (s.chan (chanOfInstr i)).rb = some (v, rb) →
      ExecNext i s (setRbOut (chanOfInstr i) (.ok v) (setRb (chanOfInstr i) rb s))
  /-- A pending RX_DISPATCH. -/
  | dispatches (rb : Rb) :
      i = .rxDispatch (chanOfInstr i) → rxPending (chanOfInstr i) s = true →
      pushedRb s (chanOfInstr i) (s.chan (chanOfInstr i)).per.rhr rb →
      ExecNext i s { s with
        ch := s.ch.set (chanOfInstr i) { s.chan (chanOfInstr i) with
          rb := rb, per := { (s.chan (chanOfInstr i)).per with rxrdy := false } },
        extlog := s.extlog ++ [.readSr (chanOfInstr i) true (s.chan (chanOfInstr i)).per.txrdy,
          .readRhr (chanOfInstr i) (s.chan (chanOfInstr i)).per.rhr] }

variable {s t : State}

/-- A pending interrupt has a byte in the holding register. -/
theorem rxrdy_of_pending {c : Chan} (h : rxPending c s = true) : (s.chan c).per.rxrdy = true := by
  simp only [rxPending, Bool.and_eq_true] at h
  exact h.2

/-- The reads of a pending dispatch. -/
theorem readRhr_readSr {c : Chan} (h : rxPending c s = true) :
    rhrValue c (readSr c s) = (s.chan c).per.rhr ∧
    readRhr c (readSr c s) = { s with
      ch := s.ch.set c { s.chan c with per := { (s.chan c).per with rxrdy := false } },
      extlog := s.extlog ++ [.readSr c true (s.chan c).per.txrdy, .readRhr c (s.chan c).per.rhr] } := by
  have hx : (s.ch.get c).per.rxrdy = true := rxrdy_of_pending h
  constructor
  · simp [rhrValue, readSr, logAccess, State.chan, hx]
  · rw [readRhr_eq]
    simp [readSr, logAccess, State.chan, rhrValue, hx]

theorem startSending_next (i : Instr) (s : State) (L : List Byte) (hc : isCommand i = true) (hf : s.fg = .idle)
    (hr : (s.chan (chanOfInstr i)).st = .running) : ExecNext i s (startSending (chanOfInstr i) L s) := by
  obtain ⟨_, h⟩ | ⟨b, rest, _, h⟩ := startSending_cases (c := chanOfInstr i) L s
  · rw [h]; exact .completes 0 hc hf hr (absurd rfl)
  · rw [h]; exact .starts _ hc hf hr rfl

theorem outcome_inj (h : (Host.Outcome.next s : Result) = .next t) : t = s := by injection h with h; exact h.symm

theorem whenRunning_execNext (i : Instr) {k : State → Result} (hc : isCommand i = true)
    (hn : ∀ c d, i ≠ .configure c d)
    (h : whenRunning (chanOfInstr i) s k = .next t)
    (hk : s.fg = .idle → (s.chan (chanOfInstr i)).st = .running → k s = .next t → ExecNext i s t) :
    ExecNext i s t := by
  obtain ⟨_, rfl⟩ | ⟨hf, hr, rfl⟩ | ⟨hf, hr, h⟩ := whenRunning_next h
  · exact .unchanged
  · exact .notConfigured hc hf hn hr
  · exact hk hf hr h

/-- The inversion of exec: provers cite it and unfold no meaning. -/
theorem exec_next {i : Instr} (h : exec i s = .next t) : ExecNext i s t := by
  cases i with
  | configure c d =>
    simp only [exec, execConfigure] at h
    by_cases hf : s.fg = .idle
    · rw [accept_idle _ hf] at h
      split at h
      · next hu => rw [outcome_inj h]; exact .configures (i := .configure c d) d rfl hf hu
      · next hu => rw [outcome_inj h]; exact .alreadyConfigured (i := .configure c d) d rfl hf (by simp [chanOfInstr, hu])
      · next hu => rw [outcome_inj h]; exact .alreadyConfigured (i := .configure c d) d rfl hf (by simp [chanOfInstr, hu])
    · rw [accept_busy _ hf] at h; rw [outcome_inj h]; exact .unchanged
  | writeByte c b =>
    simp only [exec, execWriteByte] at h
    exact whenRunning_execNext (.writeByte c b) rfl (by simp) h fun hf hr h => by
      rw [outcome_inj h]; exact startSending_next (.writeByte c b) _ _ rfl hf hr
  | writeText c b =>
    simp only [exec, execWriteText] at h
    exact whenRunning_execNext (.writeText c b) rfl (by simp) h fun hf hr h => by
      rw [outcome_inj h]; exact startSending_next (.writeText c b) _ _ rfl hf hr
  | writeUdec c b =>
    simp only [exec, execWriteUdec] at h
    exact whenRunning_execNext (.writeUdec c b) rfl (by simp) h fun hf hr h => by
      rw [outcome_inj h]; exact startSending_next (.writeUdec c b) _ _ rfl hf hr
  | writeHex32 c b =>
    simp only [exec, execWriteHex32] at h
    exact whenRunning_execNext (.writeHex32 c b) rfl (by simp) h fun hf hr h => by
      rw [outcome_inj h]; exact startSending_next (.writeHex32 c b) _ _ rfl hf hr
  | readByte c =>
    simp only [exec, execReadByte] at h
    refine whenRunning_execNext (.readByte c) rfl (by simp) h fun hf hr h => ?_
    obtain ⟨h0, rfl⟩ | ⟨h0, v, rb, hd, rfl⟩ := dequeueOn_next h
    · exact .emptyQueue (i := .readByte c) _ rfl hf hr h0
    · exact .reads (i := .readByte c) v rb rfl hf h0 hd
  | pendingCount c =>
    simp only [exec, execPendingCount] at h
    refine whenRunning_execNext (.pendingCount c) rfl (by simp) h fun hf hr h => ?_
    rw [outcome_inj h]; exact .completes (i := .pendingCount c) _ rfl hf hr fun _ => rfl
  | writeByteBounded c b l =>
    simp only [exec, execWriteByteBounded] at h
    refine whenRunning_execNext (.writeByteBounded c b l) rfl (by simp) h fun hf hr h => ?_
    rw [outcome_inj h]; exact .starts _ rfl hf hr rfl
  | rbEnqueue c b =>
    obtain ⟨rb, h1, rfl⟩ := enqueueOn_next h
    exact .enqueues (i := .rbEnqueue c b) b rb (.inl rfl) h1
  | rbDequeue c =>
    simp only [exec, execRbDequeue] at h
    obtain ⟨_, rfl⟩ | ⟨h0, v, rb, hd, rfl⟩ := dequeueOn_next h
    · exact .answers (i := .rbDequeue c) _ _ rfl
    · exact .dequeues (i := .rbDequeue c) v rb rfl h0 hd
  | rbCount c => rw [outcome_inj h]; exact .answers (i := .rbCount c) _ s.draws rfl
  | pushReceived c b =>
    obtain ⟨hr, rb, h1, rfl⟩ | ⟨_, rfl⟩ := pushOn_next h
    · exact .enqueues (i := .pushReceived c b) b rb (.inr ⟨rfl, hr⟩) h1
    · exact .unchanged
  | rxDispatch c =>
    simp only [exec, execRxDispatch] at h
    split at h
    · next hp =>
      obtain ⟨e1, e2⟩ := readRhr_readSr hp
      rw [e1, e2] at h
      obtain ⟨hr, rb, h1, rfl⟩ | ⟨hr, rfl⟩ := pushOn_next h
      · simp only [State.chan, PerChan.get_set_same] at hr h1
        rw [setRb_eq]
        simp only [PerChan.get_set_same, PerChan.set_set]
        exact .dispatches (i := .rxDispatch c) rb rfl hp (.inl ⟨hr, h1⟩)
      · simp only [State.chan, PerChan.get_set_same] at hr
        exact .dispatches (i := .rxDispatch c) (s.chan c).rb rfl hp (.inr ⟨hr, rfl⟩)
    · rw [outcome_inj h]; exact .unchanged

end Machine
end Sys2Proof
end

