-- ==== Sys2Proof/Laws/PerInstr.lean ====
section
/-! SUPPORT. Statements made per operation, about its syntax: one lemma per constructor. -/

namespace Sys2Proof
namespace Laws

/-- Where an operation is encoded on port CMD, its first byte is a legal header that names its channel
(30_encoding.md R61, R63). -/
def EncodedHeader.Statement (i : Instr) : Prop :=
  ∀ bytes, encode i = .cmd bytes →
    ∃ h rest, bytes = h :: rest ∧ legalHeader h = true ∧ headerChan h = Machine.chanOfInstr i

namespace EncodedHeader

theorem legal_header : ∀ (c : Chan) (op : BitVec 4), 1 ≤ op.toNat → op.toNat ≤ 8 → legalHeader (header op c) = true := by
  decide

theorem of_header {i : Instr} (op : BitVec 4) (c : Chan) (rest : List Byte) (hi : encode i = .cmd (header op c :: rest))
    (hc : Machine.chanOfInstr i = c) (h1 : 1 ≤ op.toNat) (h8 : op.toNat ≤ 8) : Statement i := by
  intro bytes hb
  rw [hi] at hb
  injection hb with hb
  exact ⟨_, rest, hb.symm, legal_header c op h1 h8, by rw [hc]; exact headerChan_header c op⟩

theorem of_other {i : Instr} (h : ∀ bytes, encode i ≠ .cmd bytes) : Statement i := fun bytes hb => absurd hb (h bytes)

theorem configure (c : Chan) (div : Half) : Statement (.configure c div) := of_header 1 c _ rfl rfl (by decide) (by decide)
theorem writeByte (c : Chan) (b : Byte) : Statement (.writeByte c b) := of_header 2 c _ rfl rfl (by decide) (by decide)
theorem writeText (c : Chan) (text : List Byte) : Statement (.writeText c text) :=
  of_header 3 c _ rfl rfl (by decide) (by decide)
theorem writeUdec (c : Chan) (v : Word) : Statement (.writeUdec c v) := of_header 4 c _ rfl rfl (by decide) (by decide)
theorem writeHex32 (c : Chan) (v : Word) : Statement (.writeHex32 c v) := of_header 5 c _ rfl rfl (by decide) (by decide)
theorem readByte (c : Chan) : Statement (.readByte c) := of_header 6 c _ rfl rfl (by decide) (by decide)
theorem pendingCount (c : Chan) : Statement (.pendingCount c) := of_header 7 c _ rfl rfl (by decide) (by decide)
theorem writeByteBounded (c : Chan) (b : Byte) (limit : Half) : Statement (.writeByteBounded c b limit) :=
  of_header 8 c _ rfl rfl (by decide) (by decide)
theorem rbEnqueue (c : Chan) (b : Byte) : Statement (.rbEnqueue c b) := of_other (by simp [encode])
theorem rbDequeue (c : Chan) : Statement (.rbDequeue c) := of_other (by simp [encode])
theorem rbCount (c : Chan) : Statement (.rbCount c) := of_other (by simp [encode])
theorem pushReceived (c : Chan) (b : Byte) : Statement (.pushReceived c b) := of_other (by simp [encode])
theorem rxDispatch (c : Chan) : Statement (.rxDispatch c) := of_other (by simp [encode])

end EncodedHeader
end Laws
end Sys2Proof
end

