-- ==== Sys2Proof/Laws/Step.lean ====
section
/-! SUPPORT. What a step does, by the event it takes and by what the foreground is doing. -/

namespace Sys2Proof
namespace Machine

variable {s t : State}

theorem step_idle (h : s.sched = []) : step s = .next s := by simp [step, h]

theorem step_event {e : Event} {es : List Event} (h : s.sched = e :: es) :
    step s = takeEvent e { s with sched := es } := by simp [step, h]

theorem fgStep_idle (h : s.fg = .idle) : fgStep s = runDecoded (decode (.cmd s.port)) s := by simp [fgStep, h]

theorem fgStep_sending {c : Chan} {b : Byte} {rest : List Byte} (h : s.fg = .sending c b rest) :
    fgStep s = .next (transmitStep c b rest s) := by simp [fgStep, h]

theorem fgStep_polling {c : Chan} {b : Byte} {left : Half} (h : s.fg = .polling c b left) :
    fgStep s = .next (pollStep c b left s) := by simp [fgStep, h]

/-- A transmit step holds, or hands one byte to the transmitter (41_port_driver.md R109). -/
theorem transmitStep_cases (c : Chan) (b : Byte) (rest : List Byte) (s : State) :
    ((s.chan c).per.txrdy = false ∧ transmitStep c b rest s = s) ∨
    ((s.chan c).per.txrdy = true ∧ transmitStep c b rest s = startSending c rest (tx c b (readSr c s))) := by
  unfold transmitStep txReadyFlag
  cases h : (s.chan c).per.txrdy <;> simp

/-- A poll step times out, sends its byte, or uses up one poll (41_port_driver.md R110). -/
theorem pollStep_cases (c : Chan) (b : Byte) (left : Half) (s : State) :
    (left = 0 ∧ pollStep c b left s = respond .txTimeout 0 s) ∨
    (left ≠ 0 ∧ (s.chan c).per.txrdy = true ∧ pollStep c b left s = respond .ok 0 (tx c b (readSr c s))) ∨
    (left ≠ 0 ∧ (s.chan c).per.txrdy = false ∧
      pollStep c b left s = { readSr c s with fg := .polling c b (left - 1) }) := by
  unfold pollStep txReadyFlag
  by_cases h0 : left = 0
  · exact .inl ⟨h0, by rw [if_pos h0]; rfl⟩
  · rw [if_neg h0]
    cases h : (s.chan c).per.txrdy
    · exact .inr (.inr ⟨h0, rfl, by simp⟩)
    · exact .inr (.inl ⟨h0, rfl, by simp⟩)

/-! ### The inversion of step -/

/-- Everything a step may leave behind from `s`. -/
inductive StepNext (s : State) : State → Prop
  /-- Nothing is scheduled. -/
  | stutter : s.sched = [] → StepNext s s
  /-- The event is taken and does nothing: it is not enabled, or what it presents is no operation. -/
  | nothing (e : Event) (es : List Event) : s.sched = e :: es → StepNext s { s with sched := es }
  /-- A command runs, from port CMD while the foreground is idle. -/
  | commands (es : List Event) (i : Instr) (p : List Byte) (t : State) :
      s.sched = .fg :: es → s.fg = .idle → decodeCmd s.port = .ok i p →
      exec i { s with sched := es, port := p } = .next t → StepNext s t
  /-- An operation of another port runs. -/
  | operates (e : Event) (es : List Event) (i : Instr) (t : State) :
      s.sched = e :: es → isCommand i = false → exec i { s with sched := es } = .next t → StepNext s t
  /-- An illegal header responds. -/
  | illegal (h : Byte) (p : List Byte) (es : List Event) :
      s.sched = .fg :: es → s.fg = .idle → decodeCmd s.port = .illegal h p →
      StepNext s (respond .illegalCommand 0 { s with sched := es, port := p })
  /-- A transmit step hands a byte to the transmitter. -/
  | transmits (es : List Event) (c : Chan) (b : Byte) (rest : List Byte) :
      s.sched = .fg :: es → s.fg = .sending c b rest → (s.chan c).per.txrdy = true →
      StepNext s (startSending c rest (tx c b (readSr c { s with sched := es })))
  /-- A poll step has no poll left. -/
  | timesOut (es : List Event) (c : Chan) (b : Byte) : s.sched = .fg :: es → s.fg = .polling c b 0 →
      StepNext s (respond .txTimeout 0 { s with sched := es })
  /-- A poll step finds TXRDY set. -/
  | pollSends (es : List Event) (c : Chan) (b : Byte) (left : Half) :
      s.sched = .fg :: es → s.fg = .polling c b left → (s.chan c).per.txrdy = true →
      StepNext s (respond .ok 0 (tx c b (readSr c { s with sched := es })))
  /-- A poll step uses up one poll. -/
  | polls (es : List Event) (c : Chan) (b : Byte) (left : Half) :
      s.sched = .fg :: es → s.fg = .polling c b left → left ≠ 0 → (s.chan c).per.txrdy = false →
      StepNext s { readSr c { s with sched := es } with fg := .polling c b (left - 1) }
  /-- A byte arrives. -/
  | arrives (es : List Event) (c : Chan) (b : Byte) : s.sched = .arrive c b :: es → (s.chan c).per.rxEn = true →
      StepNext s (modPer c (fun p => { p with rhr := b, rxrdy := true }) { s with sched := es })
  /-- The transmitter becomes ready. -/
  | readies (es : List Event) (c : Chan) :
      s.sched = .txReady c :: es → (s.chan c).per.txEn = true → (s.chan c).per.txrdy = false →
      StepNext s (modPer c (fun p => { p with txrdy := true }) { s with sched := es })
  /-- The caller presents bytes. -/
  | presents (es : List Event) (bytes : List Byte) : s.sched = .present bytes :: es → s.fg = .idle →
      StepNext s { s with sched := es, port := s.port ++ bytes }

theorem runPort_next {w : Wire} {e : Event} {es : List Event} (hs : s.sched = e :: es)
    (hw : ∀ i r, decode w = .ok i r → isCommand i = false) (h : runPort w { s with sched := es } = .next t) :
    StepNext s t := by
  unfold runPort at h
  split at h
  · next i r hd => exact .operates e es i t hs (hw _ _ hd) h
  all_goals rw [outcome_inj h]; exact .nothing e es hs

theorem step_next (h : step s = .next t) : StepNext s t := by
  cases hs : s.sched with
  | nil => rw [step_idle hs] at h; rw [outcome_inj h]; exact .stutter hs
  | cons e es =>
    rw [step_event hs] at h
    cases e with
    | fg =>
      simp only [takeEvent] at h
      cases hf : s.fg with
      | idle =>
        rw [fgStep_idle (by exact hf)] at h
        unfold runDecoded at h
        split at h
        · next i r hd => exact .commands es i r t hs hf hd h
        · next b r hd => rw [outcome_inj h]; exact .illegal b r es hs hf hd
        · rw [outcome_inj h]; exact .nothing _ es hs
        · rw [outcome_inj h]; exact .nothing _ es hs
      | sending c b rest =>
        rw [fgStep_sending (by exact hf)] at h
        rw [outcome_inj h]
        obtain ⟨h1, h2⟩ | ⟨h1, h2⟩ := transmitStep_cases c b rest { s with sched := es }
        · rw [h2]; exact .nothing _ es hs
        · rw [h2]; exact .transmits es c b rest hs hf h1
      | polling c b left =>
        rw [fgStep_polling (by exact hf)] at h
        rw [outcome_inj h]
        obtain ⟨h1, h2⟩ | ⟨h1, h2, h3⟩ | ⟨h1, h2, h3⟩ := pollStep_cases c b left { s with sched := es }
        · rw [h2]; subst h1; exact .timesOut es c b hs hf
        · rw [h3]; exact .pollSends es c b left hs hf h2
        · rw [h3]; exact .polls es c b left hs hf h1 h2
    | irq w =>
      exact runPort_next (w := .irq w) hs (by intro i r h; injection h with h _; subst h; rfl) h
    | prx w =>
      exact runPort_next (w := .prx w) hs (by intro i r h; injection h with h _; subst h; rfl) h
    | rbp c w =>
      refine runPort_next (w := .rbp c w) hs ?_ h
      intro i r h
      simp only [decode, decodeRbp] at h
      split at h <;> cases h <;> rfl
    | arrive c b =>
      simp only [takeEvent, envArrive] at h
      rw [outcome_inj h]
      split
      · next hh => exact .arrives es c b hs hh
      · exact .nothing _ es hs
    | txReady c =>
      simp only [takeEvent, envTxReady] at h
      rw [outcome_inj h]
      split
      · next hh => simp at hh; exact .readies es c hs hh.1 hh.2
      · exact .nothing _ es hs
    | present bytes =>
      simp only [takeEvent, presentBytes] at h
      rw [outcome_inj h]
      split
      · next hf => exact .presents es bytes hs hf
      · exact .nothing _ es hs
      · exact .nothing _ es hs

/-- What decodes on port CMD is a command. -/
theorem isCommand_of_decodeCmd {bytes rest : List Byte} {i : Instr} (h : decodeCmd bytes = .ok i rest) :
    isCommand i = true := by
  have aux : ∀ {α : Type} (o : Option (α × List Byte)) (f : α → Instr), (∀ x, isCommand (f x) = true) →
      complete o f = .ok i rest → isCommand i = true := by
    intro α o f hf ho
    unfold complete at ho
    split at ho
    · cases ho
    · injection ho with h1 _; rw [← h1]; exact hf _
  cases bytes with
  | nil => cases h
  | cons b bs =>
    simp only [decodeCmd] at h
    repeat'
      split at h
      on_goal 1 => first
        | exact aux _ _ (fun _ => rfl) h
        | (injection h with h1 _; rw [← h1]; rfl)
    cases h

/-! ### Runs -/

theorem run_zero (s : State) : Host.Core.run Sys2Proof.core 0 s = .next s := rfl

theorem run_succ (h : step s = .next t) (k : Nat) :
    Host.Core.run Sys2Proof.core (k + 1) s = Host.Core.run Sys2Proof.core k t := by
  simp only [Host.Core.run, show Sys2Proof.core.step s = .next t from h]

/-- A run that answers took its first step and ran on. -/
theorem run_next {u : State} {k : Nat} (h : Host.Core.run Sys2Proof.core (k + 1) s = .next u) :
    ∃ t, step s = .next t ∧ Host.Core.run Sys2Proof.core k t = .next u := by
  simp only [Host.Core.run] at h
  split at h
  · next t ht => exact ⟨t, ht, h⟩
  · cases h
  · cases h

theorem run_add (j k : Nat) (h : Host.Core.run Sys2Proof.core j s = .next t) :
    Host.Core.run Sys2Proof.core (j + k) s = Host.Core.run Sys2Proof.core k t := by
  induction j generalizing s with
  | zero => rw [run_zero] at h; cases h; rw [Nat.zero_add]
  | succ j ih =>
    obtain ⟨u, h1, h2⟩ := run_next h
    rw [show j + 1 + k = j + k + 1 by omega, run_succ h1]
    exact ih h2

end Machine
end Sys2Proof
end

