-- ==== Sys2Proof/Tests/Slice0.lean ====
section
/-! SUPPORT. Tests on fixed values: expected results are the vectors of 95_test_vectors.md (named V.., P..) and the
examples of the rules. Then, for every statement that has hypotheses, a witness that meets them all. -/

namespace Sys2Proof
namespace Tests

open Machine

/-! ### Helpers -/

/-- The state of a step that goes on. -/
def nextOf : Result → Option State
  | .next t => some t
  | .fault _ => none
  | .refused _ => none

theorem exists_next {r : Result} (h : (nextOf r).isSome = true) : ∃ t, r = .next t := by
  cases r with
  | next t => exact ⟨t, rfl⟩
  | fault _ => cases h
  | refused _ => cases h

/-- A question about the state a result goes on to; false where it does not go on. -/
def after (r : Result) (p : State → Bool) : Bool :=
  match nextOf r with
  | some t => p t
  | none => false

/-- The reset state with buffers of size `n`. -/
def base (n : Nat) : State :=
  State.resetWith { Config.default with n := n } (PerChan.tabulate fun _ => PowerOn.default)

/-- `base n` after CONFIGURE c, 546, the response left out. -/
def up (n : Nat) (c : Chan) : State := configureSteps c 546 (base n)

/-- A store that holds the given bytes from index 0 on. -/
def storeOf (bs : List Byte) : Memory := (List.range bs.length).zip bs

/-- A ring buffer as the vectors write it. -/
def rbOf (h t k : Nat) (bs : List Byte) : Rb := ⟨storeOf bs, h, t, k⟩

/-- TXRDY of channel `c` set. -/
def ready (c : Chan) (s : State) : State := modPer c (fun p => { p with txrdy := true }) s

/-- A byte pending in the receive holding register of channel `c`. -/
def pendingByte (c : Chan) (b : Byte) (s : State) : State :=
  modPer c (fun p => { p with rhr := b, rxrdy := true }) s

/-! ### Well-formedness -/

theorem test_wf_rejects_text_with_terminator : Instr.wf (.writeText 0 [0x41, 0x00, 0x42]) = false := by decide
theorem test_wf_accepts_high_bytes : Instr.wf (.writeText 0 [0xFF, 0x80]) = true := by decide

/-! ### Decoding: one written-out word for every operation (30_encoding.md R63, R66, R67; V20, V53, V44, V48, V60 to V69) -/

theorem test_decode_configure : decode (.cmd [0x13, 0xFF, 0xFE]) = .ok (.configure 3 0xFEFF) [] := by decide
theorem test_decode_writeByte : decode (.cmd [0x21, 0x20]) = .ok (.writeByte 1 0x20) [] := by decide
theorem test_decode_writeText :
    decode (.cmd [0x30, 0x4F, 0x4B, 0x0D, 0x0A, 0x00, 0x60]) = .ok (.writeText 0 [0x4F, 0x4B, 0x0D, 0x0A]) [0x60] := by
  decide
theorem test_decode_writeUdec : decode (.cmd [0x40, 0x39, 0x30, 0x00, 0x00]) = .ok (.writeUdec 0 12345) [] := by decide
theorem test_decode_writeHex32 :
    decode (.cmd [0x50, 0xEF, 0xBE, 0xAD, 0xDE]) = .ok (.writeHex32 0 0xDEADBEEF) [] := by decide
theorem test_decode_readByte : decode (.cmd [0x63]) = .ok (.readByte 3) [] := by decide
theorem test_decode_pendingCount : decode (.cmd [0x72]) = .ok (.pendingCount 2) [] := by decide
theorem test_decode_writeByteBounded :
    decode (.cmd [0x80, 0x55, 0x03, 0x00]) = .ok (.writeByteBounded 0 0x55 3) [] := by decide
theorem test_decode_rbEnqueue : decode (.rbp 1 0b0110100101) = .ok (.rbEnqueue 1 0xA5) [] := by decide
theorem test_decode_rbDequeue : decode (.rbp 1 0b1011111111) = .ok (.rbDequeue 1) [] := by decide
theorem test_decode_rbCount : decode (.rbp 2 0b1100000001) = .ok (.rbCount 2) [] := by decide
theorem test_decode_pushReceived : decode (.prx 0b1001111110) = .ok (.pushReceived 2 0x7E) [] := by decide
theorem test_decode_rxDispatch : decode (.irq 0b11) = .ok (.rxDispatch 3) [] := by decide
theorem test_decode_illegal :
    decode (.cmd [0x00]) = .illegal 0x00 [] ∧ decode (.cmd [0x90, 0x60]) = .illegal 0x90 [0x60] ∧
    decode (.cmd [0xF3]) = .illegal 0xF3 [] ∧ decode (.cmd [0x64]) = .illegal 0x64 [] ∧
    decode (.cmd [0x6C]) = .illegal 0x6C [] ∧ decode (.rbp 0 0x0FF) = .noOperation := by decide
theorem test_decode_incomplete :
    decode (.cmd [0x31, 0x41]) = .incomplete ∧ decode (.cmd [0x10, 0x22]) = .incomplete ∧
    decode (.cmd []) = .incomplete := by decide
theorem test_table_words :
    decodeTableWord 24 0x022210 = some (.configure 0 546) ∧ decodeTableWord 16 0x4120 = some (.writeByte 0 0x41) ∧
    decodeTableWord 8 0x60 = some (.readByte 0) ∧ decodeTableWord 16 0x1A5 = some (.rbEnqueue 0 0xA5) ∧
    decodeTableWord 16 0x000 = some (.pushReceived 0 0) ∧ decodeTableWord 8 3 = some (.rxDispatch 3) ∧
    decodeTableWord 8 0x30 = some (.writeText 0 []) ∧ decodeTableWord 8 0x90 = none := by decide

/-! ### Ring buffer family (V1, V4, V2, V3, V7, V8, V14) -/

theorem test_rbEnqueue_first_wraps :
    after (exec (.rbEnqueue 0 0x11) (base 4)) (fun t => (t.chan 0).rb == rbOf 0 0 1 [0x11]) = true := by decide
theorem test_rbEnqueue_full_uses_unused_element :
    after (exec (.rbEnqueue 0 0x44) (setRb 0 (rbOf 0 2 3 [0x11, 0x22, 0x33]) (base 4)))
      (fun t => (t.chan 0).rb == rbOf 1 3 3 [0x11, 0x22, 0x33, 0x44]) = true := by decide
theorem test_rbDequeue_head_wraps :
    after (exec (.rbDequeue 0) (setRb 0 (rbOf 3 0 2 [0x55, 0x22, 0x33, 0x44]) (base 4)))
      (fun t => (t.chan 0).rb == rbOf 0 0 1 [0x55, 0x22, 0x33, 0x44] && (t.chan 0).rbOut == .ok 0x44) = true := by decide
theorem test_rbDequeue_empty_changes_nothing :
    after (exec (.rbDequeue 0) (setRb 0 (rbOf 1 0 0 [0x11]) (base 4)))
      (fun t => (t.chan 0).rb == rbOf 1 0 0 [0x11]) = true := by decide
theorem test_rbCount_saturates_at_three :
    after (exec (.rbCount 0) (setRb 0 (rbOf 0 2 3 [0x11, 0x22, 0x33]) (base 4)))
      (fun t => (t.chan 0).rbOut == .count 3) = true := by decide
theorem test_idxWidth : [2, 3, 255, 256, 257, 65535, 65536].map idxWidth = [1, 2, 8, 8, 9, 16, 16] := by decide
theorem test_next_index_at_default_size : nxt 255 254 = 0 ∧ nxt 255 253 = 254 ∧ nxt 256 255 = 0 := by decide

/-! ### Port driver family (V20, V21, V22, V24, V25, V27, V29, V31, V32, V33, V34) -/

theorem test_configure_whole_sequence :
    after (exec (.configure 0 546) (base 255)) (fun t =>
      (t.chan 0).st == .running && (t.chan 0).baud == 546 &&
      (t.chan 0).per == ⟨true, true, false, false, 0, true, 546, ⟨.none, none, none⟩⟩ &&
      pinGet 0 t == ⟨.periph, .g0, true⟩ && pinGet 1 t == ⟨.periph, .g0, true⟩ && t.intc == [0] &&
      (t.chan 0).rb == ⟨[], 0, 254, 0⟩ && t.resp == ⟨.ok, 0⟩) = true := by decide
theorem test_configure_usart_alternate_group :
    pinGet 6 (up 255 3) = ⟨.periph, .g1, true⟩ ∧ ((up 255 3).chan 3).per.mode = ⟨.none, some 8, some 1⟩ := by decide
theorem test_writeByte_before_configure :
    after (exec (.writeByte 2 0x41) (base 255)) (fun t =>
      t.resp == ⟨.notConfigured, 0⟩ && t.extlog == [] && t.ch == (base 255).ch) = true := by decide
theorem test_writeByte_sent_when_ready :
    after (step { ready 0 (up 255 0) with fg := .sending 0 0x41 [], sched := [.fg] }) (fun t =>
      t.resp == ⟨.ok, 0⟩ && (t.chan 0).line == [0x41] && !(t.chan 0).per.txrdy && t.fg == .idle) = true := by decide
theorem test_bounded_first_poll :
    after (step { up 255 0 with fg := .polling 0 0x55 3, sched := [.fg] }) (fun t =>
      t.fg == .polling 0 0x55 2 && (t.chan 0).line == [] && t.responses == []) = true := by decide
theorem test_bounded_limit_zero :
    after (step { ready 0 (up 255 0) with fg := .polling 0 0x55 0, sched := [.fg] }) (fun t =>
      t.resp == ⟨.txTimeout, 0⟩ && t.extlog == (up 255 0).extlog && (t.chan 0).line == []) = true := by decide
theorem test_readByte_empty :
    after (exec (.readByte 0) (up 255 0)) (fun t => t.resp.status == .emptyQueue && t.ch == (up 255 0).ch) = true := by
  decide
theorem test_readByte_pushed_byte :
    after (exec (.readByte 0) (setRb 0 (rbOf 0 0 1 [0x7E]) (up 255 0))) (fun t =>
      t.resp == ⟨.ok, 0x007E⟩ && (t.chan 0).rb == rbOf 1 0 0 [0x7E]) = true := by decide
theorem test_pendingCount_one :
    after (exec (.pendingCount 0) (setRb 0 (rbOf 0 0 1 [0x7E]) (up 255 0))) (fun t => t.resp == ⟨.ok, 1⟩) = true := by
  decide
theorem test_pushReceived_delegates :
    after (exec (.pushReceived 0 0x7E) (up 255 0)) (fun t => (t.chan 0).rb == rbOf 0 0 1 [0x7E]) = true := by decide
theorem test_pushReceived_before_configure_changes_nothing :
    after (exec (.pushReceived 0 0x7E) (base 255)) (fun t => t == base 255) = true := by decide

/-! ### Formatted output family (V40, V44, V46, V48, V49, V54, V55) -/

theorem test_udec_zero : udecBytes 0 = [0x30] := by decide
theorem test_udec_largest : udecBytes 4294967295 = [0x34, 0x32, 0x39, 0x34, 0x39, 0x36, 0x37, 0x32, 0x39, 0x35] := by decide
theorem test_hex_deadbeef : hexBytes 0xDEADBEEF = [0x44, 0x45, 0x41, 0x44, 0x42, 0x45, 0x45, 0x46] := by decide
theorem test_hex_ten : hexBytes 0xA = [0x30, 0x30, 0x30, 0x30, 0x30, 0x30, 0x30, 0x41] := by decide
theorem test_writeUdec_issue :
    after (exec (.writeUdec 0 12345) (up 255 0))
      (fun t => t.fg == .sending 0 0x31 [0x32, 0x33, 0x34, 0x35] && t.responses == []) = true := by decide
theorem test_writeText_empty :
    after (exec (.writeText 0 []) (up 255 0)) (fun t =>
      t.resp == ⟨.ok, 0⟩ && t.fg == .idle && t.extlog == (up 255 0).extlog) = true := by decide
theorem test_writeText_high_bytes :
    after (exec (.writeText 0 [0xFF, 0x80]) (up 255 0)) (fun t => t.fg == .sending 0 0xFF [0x80]) = true := by decide

/-! ### The receive interrupt (V70, V71, V72) and the numeric codes (60_exceptions.md R160) -/

theorem test_arrival_is_not_yet_in_the_buffer :
    after (step { up 255 0 with sched := [.arrive 0 0x5A] }) (fun t =>
      (t.chan 0).per.rhr == 0x5A && (t.chan 0).per.rxrdy && (t.chan 0).rb == ⟨[], 0, 254, 0⟩ && rxPending 0 t) = true := by
  decide
theorem test_rxDispatch_moves_the_byte :
    after (exec (.rxDispatch 0) (pendingByte 0 0x5A (up 255 0))) (fun t =>
      !(t.chan 0).per.rxrdy && (t.chan 0).rb == rbOf 0 0 1 [0x5A] &&
      t.extlog == (up 255 0).extlog ++ [.readSr 0 true false, .readRhr 0 0x5A]) = true := by decide
theorem test_second_arrival_replaces_the_first :
    after (step { pendingByte 0 0x01 (up 255 0) with sched := [.arrive 0 0x02] })
      (fun t => (t.chan 0).per.rhr == 0x02) = true := by decide
theorem test_status_codes :
    [Status.ok, .emptyQueue, .notConfigured, .alreadyConfigured, .illegalCommand, .txTimeout].map statusCode =
      [0, 1, 2, 3, 4, 5] := by decide
theorem test_physical_words_of_configure :
    physAccess Config.default (.regWrite 1 (.mode (modeOf Config.default 1))) = some ⟨512 + 4, .w32, some 13⟩ ∧
    physAccess Config.default (.regWrite 0 (.ctrl false false true true)) = some ⟨256, .w32, some 12⟩ := by decide
theorem test_mode_word_encodes_character_length :
    let k : Config := { Config.default with usartCharlen := 7, usartStopbits := 2 }
    physAccess k (.regWrite 1 (.mode (modeOf k 1))) = some ⟨512 + 4, .w32, some 25⟩ := by decide
theorem test_placed_word_runs :
    after (step (State.withFetchWord State.reset 24 0x022210)) (fun t =>
      (t.chan 0).st == .running && (t.chan 0).baud == 546 && t.port == []) = true := by decide
theorem test_illegal_header_responds :
    after (step { base 255 with port := [0x90, 0x60], sched := [.fg] }) (fun t =>
      t.resp == ⟨.illegalCommand, 0⟩ && t.port == [0x60]) = true := by decide

/-! ### Witnesses: for every statement with hypotheses, values that meet them all, each clause at a boundary -/

theorem witness_DecodeOfEncodeIsTheOperation :
    Instr.wf (.writeText 3 [0x01, 0xFF]) = true ∧ encode (.writeText 3 [0x01, 0xFF]) = .cmd [0x33, 0x01, 0xFF, 0x00] := by
  decide
theorem witness_DecodedCommandReencodesToItsBytes : decodeCmd [0x30, 0x00, 0x00] = .ok (.writeText 0 []) [0x00] := by
  decide
theorem witness_OpcodeMapOfPortCmd :
    (∀ b ∈ [(0x01 : Byte), 0xFF], b ≠ 0x00#8) ∧ (9 ≤ 9 ∧ 9 ≤ 15) ∧ (9 ≤ 15 ∧ 15 ≤ 15) ∧
    (1 ≤ 1 ∧ 1 ≤ 3 ∧ 3 ≤ 3 ∧ 0 ≤ 15) ∧ decodeCmd [0x6F, 0x70] = .illegal 0x6F [0x70] := by decide
theorem witness_InternalPortWords : decodeCmd [0x60] = .ok (.readByte 0) [] := by decide
theorem witness_IllegalHeadersRaiseIllegalCommand :
    ((0x0F#8).extractLsb' 4 4).toNat = 0 ∧ 9 ≤ ((0x90#8).extractLsb' 4 4).toNat ∧
    (0x84#8).extractLsb' 2 2 ≠ 0#2 ∧ ¬ 9 ≤ ((0x84#8).extractLsb' 4 4).toNat ∧
    (0x0FF : BitVec 10).extractLsb' 8 2 = 0#2 ∧
    (base 4).fg = .idle := by decide
theorem witness_TruncatedCommandHasNoEffect :
    Instr.wf (.writeText 1 []) = true ∧ encode (.writeText 1 []) = .cmd [0x31, 0x00] ∧
    (1 < [(0x31 : Byte), 0x00].length) ∧ { base 4 with port := [0x31], sched := [.fg] }.fg = .idle ∧
    { base 4 with port := [0x31], sched := [.fg] }.port = [(0x31 : Byte), 0x00].take 1 ∧
    (0 < [(0x31 : Byte), 0x00].length) ∧ (base 4).port = [(0x31 : Byte), 0x00].take 0 := by decide
theorem witness_StepRunsTheDecodedOperation :
    (base 4).fg = .idle ∧ decodeCmd [0x63, 0x90] = .ok (.readByte 3) [0x90] ∧
    decodeRbp 3 0x100 = .ok (.rbEnqueue 3 0) [] ∧ decodeRbp 0 0x3FF = .ok (.rbCount 0) [] := by decide
theorem witness_PlacedTableWordRunsNext :
    (base 4).fg = .idle ∧ decodeTableWord 40 0xFFFFFFFF43 = some (.writeUdec 3 0xFFFFFFFF) := by decide
theorem witness_PresentedBytesReachThePort :
    { base 4 with port := [0x31], sched := [.present [0x41, 0x00]] }.fg = .idle ∧
    { up 4 0 with fg := .polling 0 0x41 0, sched := [.present [0x60]] }.fg ≠ .idle := by decide
theorem witness_ByteArrivalFillsTheHoldingRegister :
    ((up 4 0).chan 0).per.rxEn = true ∧ ((base 4).chan 0).per.rxEn = false := by decide
theorem witness_TransmitReadyRaisesTheFlag :
    (((up 4 0).chan 0).per.txEn = true ∧ ((up 4 0).chan 0).per.txrdy = false) ∧
    ¬ (((base 4).chan 0).per.txEn = true ∧ ((base 4).chan 0).per.txrdy = false) ∧
    ¬ (((ready 0 (up 4 0)).chan 0).per.txEn = true ∧ ((ready 0 (up 4 0)).chan 0).per.txrdy = false) := by decide

/-- A full buffer of four elements, and the smallest one. -/
theorem witness_EnqueueStoresAfterTail :
    2 ≤ (base 4).cfg.n ∧ Rb.Wf 4 (rbOf 0 2 3 [0x11, 0x22, 0x33]) ∧ (rbOf 0 2 3 [0x11, 0x22, 0x33]).count = 4 - 1 ∧
    2 ≤ (base 2).cfg.n ∧ Rb.Wf 2 (Rb.reset 2) ∧
    (0x1FF : BitVec 10).extractLsb' 8 2 = 0b01#2 ∧ (0x1FF : BitVec 10).extractLsb' 0 8 = 0xFF#8 := by decide
theorem witness_DequeueReturnsTheOldestByte :
    Rb.Wf 4 (rbOf 3 3 1 [0, 0, 0, 0x44]) ∧ (rbOf 3 3 1 [0, 0, 0, 0x44]).count ≠ 0 ∧
    ((base 4).chan 1).rb.Wf (base 4).cfg.n ∧ ((base 4).chan 1).rb.count = 0 ∧
    (0x2FF : BitVec 10).extractLsb' 8 2 = 0b10#2 := by decide
theorem witness_CountReturnsCount :
    Rb.Wf 4 (rbOf 0 2 3 [0x11, 0x22, 0x33]) ∧ (0x300 : BitVec 10).extractLsb' 8 2 = 0b11#2 := by decide
theorem witness_IndexRegistersHaveWidthIdxw :
    (2 ≤ 2 ∧ 65536 ≤ 65536) ∧ (1 ≤ 16 ∧ 65536 ≤ 2 ^ 16) ∧ Rb.Wf 4 (rbOf 0 2 3 [0x11, 0x22, 0x33]) ∧
    Rb.Wf 65536 (Rb.reset 65536) ∧ (base 65536).cfg.n ≤ 65536 ∧ ((base 4).chan 0).rb.Wf (base 4).cfg.n := by decide
theorem witness_FifoLaw :
    2 ≤ (base 4).cfg.n ∧ ((base 4).chan 2).rb.Wf (base 4).cfg.n ∧ ((base 4).chan 2).rb.count = 0 ∧
    [(0x11 : Byte), 0x22, 0x33].length ≤ (base 4).cfg.n - 1 ∧ [(0x11 : Byte), 0x22, 0x33][2]? = some 0x33 := by decide
theorem witness_OverwriteLaw :
    2 ≤ (base 4).cfg.n ∧
    ((setRb 2 (rbOf 3 1 3 [0x55, 0x66, 0x33, 0x44]) (base 4)).chan 2).rb.Wf (base 4).cfg.n ∧
    ((setRb 2 (rbOf 3 1 3 [0x55, 0x66, 0x33, 0x44]) (base 4)).chan 2).rb.count = (base 4).cfg.n - 1 ∧
    ((base 4).chan 2).rb.Wf (base 4).cfg.n ∧ ((base 4).chan 2).rb.count = 0 := by decide
theorem witness_CountLaw :
    2 ≤ (base 4).cfg.n ∧ ((base 4).chan 2).rb.Wf (base 4).cfg.n ∧ ((base 4).chan 2).rb.count = 0 ∧
    [Instr.rbEnqueue 2 0x11].all (isRingOp 2) = true ∧
    ∀ pre i post u, [Instr.rbEnqueue 2 0x11] = pre ++ i :: post → runOps pre (base 4) = .next u →
      fitsBuffer 2 i u = true := by
  refine ⟨by decide, by decide, by decide, by decide, ?_⟩
  intro pre i post u h hr
  cases pre with
  | nil => cases h; cases hr; decide
  | cons j pre => simp at h

theorem witness_ConfigureRunsTheEightSteps :
    (base 4).fg = .idle ∧ ((base 4).chan 3).st = .uninitialized ∧
    (up 4 3).fg = .idle ∧ ((up 4 3).chan 3).st ≠ .uninitialized := by decide
theorem witness_FamiliesDifferInGroupAndMode : (0 : Chan) = 0 ∧ (1 : Chan) ≠ 0 ∧ (3 : Chan) ≠ 0 := by decide
theorem witness_UseBeforeConfigureIsAFault :
    (base 4).fg = .idle ∧ isCommand (.writeHex32 1 0) = true ∧ (∀ c d, Instr.writeHex32 1 0 ≠ .configure c d) ∧
    ((base 4).chan 1).st ≠ .running ∧ StateInv (up 4 0) ∧ ((up 4 0).chan 1).st ≠ .running := by
  refine ⟨by decide, by decide, by simp, by decide, by decide, by decide⟩
theorem witness_CommandWaitsForIdle :
    isCommand (.configure 0 0) = true ∧ { base 4 with fg := .sending 0 0x41 [] }.fg ≠ .idle ∧
    { base 4 with fg := .polling 0 0x41 0 }.fg ≠ .idle := by decide

/-- An idle foreground and a Running channel: what the transmit, read and count statements assume. -/
theorem witness_idle_and_running :
    (up 4 0).fg = .idle ∧ ((up 4 0).chan 0).st = .running ∧ (up 4 0).cfg.Wf ∧
    ((up 4 0).chan 0).rb.Wf (up 4 0).cfg.n ∧ ((up 4 0).chan 0).rb.count = 0 := by decide
theorem witness_WriteTextStartsSendingTheText :
    Instr.wf (.writeText 0 []) = true ∧ Instr.wf (.writeText 0 [0x01, 0xFF]) = true := by decide
theorem witness_ReadByteReturnsTheOldestByte :
    (setRb 0 (rbOf 0 0 1 [0x7E]) (up 4 0)).fg = .idle ∧
    ((setRb 0 (rbOf 0 0 1 [0x7E]) (up 4 0)).chan 0).st = .running ∧
    ((setRb 0 (rbOf 0 0 1 [0x7E]) (up 4 0)).chan 0).rb.Wf (up 4 0).cfg.n ∧
    ((setRb 0 (rbOf 0 0 1 [0x7E]) (up 4 0)).chan 0).rb.count ≠ 0 := by decide
theorem witness_TransmitStepSendsOneByte :
    { ready 0 (up 4 0) with fg := .sending 0 0x41 [], sched := [.fg] }.fg = .sending 0 0x41 [] ∧
    ((ready 0 (up 4 0)).ch.get 0).per.txrdy = true ∧ ((up 4 0).ch.get 0).per.txrdy = false := by decide
theorem witness_PollStepReadsStatusOnce :
    { up 4 0 with fg := .polling 0 0x41 1, sched := [.fg] }.fg = .polling 0 0x41 1 ∧ (1 : Half) ≠ 0 ∧
    (0xFFFF : Half) ≠ 0 ∧ ((ready 0 (up 4 0)).ch.get 0).per.txrdy = true ∧
    ((up 4 0).ch.get 0).per.txrdy = false := by decide
theorem witness_PushReceivedIsTheEnqueue :
    2 ≤ (up 4 0).cfg.n ∧ ((up 4 0).ch.get 0).st = .running ∧ ((base 4).ch.get 0).st ≠ .running ∧
    StateInv (pendingByte 0 0x5A (up 4 0)) ∧ rxPending 0 (pendingByte 0 0x5A (up 4 0)) = true := by decide
theorem witness_RxDispatchMovesThePendingByte :
    2 ≤ (up 4 0).cfg.n ∧ ((pendingByte 0 0x5A (up 4 0)).chan 0).st = .running ∧
    rxPending 0 (pendingByte 0 0x5A (up 4 0)) = true ∧ ((up 4 0).chan 0).st = .running ∧
    rxPending 0 (up 4 0) = false := by decide
theorem witness_PendingConditionOfTheReceiveInterrupt :
    ∃ t, exec (.rxDispatch 0) (pendingByte 0 0x5A (up 4 0)) = .next t ∧
      ((pendingByte 0 0x5A (up 4 0)).chan 0).per.ierRxrdy = true ∧ 0 ∈ (pendingByte 0 0x5A (up 4 0)).intc := by
  obtain ⟨t, h⟩ := exists_next (r := exec (.rxDispatch 0) (pendingByte 0 0x5A (up 4 0))) (by decide)
  exact ⟨t, h, by decide, by decide⟩
theorem witness_InterruptSideLeavesTheForeground :
    ∃ t, isCommand (.rxDispatch 0) = false ∧ exec (.rxDispatch 0) (pendingByte 0 0x5A (up 4 0)) = .next t := by
  obtain ⟨t, h⟩ := exists_next (r := exec (.rxDispatch 0) (pendingByte 0 0x5A (up 4 0))) (by decide)
  exact ⟨t, by decide, h⟩

/-- Channels 0 and 2 Running, a byte pending on each (V74). -/
def bothPending : State :=
  pendingByte 0 0x10 (pendingByte 2 0x20 (configureSteps 2 1 (up 4 0)))

theorem witness_OrderOfInterruptsIsUnobservable :
    StateInv bothPending ∧ (0 : Chan) ≠ 2 ∧ rxPending 0 bothPending = true ∧ rxPending 2 bothPending = true := by decide
theorem witness_HoldingRegisterAccesses : ((pendingByte 0 0x5A (up 4 0)).chan 0).per.rxrdy = true := by decide

/-- A layout of the narrowest registers the fields fit in, each field at the top of its register. -/
def narrow : UsartLayout where
  ctrl := ⟨0, .w8⟩
  mode := ⟨1, .w8⟩
  ier := ⟨2, .w8⟩
  sr := ⟨3, .w8⟩
  rhr := ⟨4, .w8⟩
  thr := ⟨5, .w8⟩
  brgr := ⟨6, .w16⟩
  rstrxBit := 4
  rsttxBit := 5
  rxenBit := 6
  txenBit := 7
  ierRxrdyBit := 7
  srRxrdyBit := 6
  srTxrdyBit := 7
  parPos := 0
  parNoneCode := 4
  chrl := ⟨6, [(5, 0), (6, 1), (7, 2), (8, 3)]⟩
  nbstop := ⟨3, [(1, 1), (2, 6)]⟩

/-- The default parameters with the narrow layout, and the character length at the low end of its encoding. -/
def narrowConfig : Config := { Config.default with layoutUsart := narrow, usartCharlen := 5 }

theorem witness_PhysicalAccessesFollowTheLayout :
    Config.default.UsartFits ∧ narrowConfig.UsartFits ∧ Layout.default.FieldsFit ∧ narrow.FieldsFit :=
  have h : Config.default.UsartFits := by decide
  have h' : narrowConfig.UsartFits := by decide
  ⟨h, h', h.1, h'.1⟩
theorem witness_ModeWordTellsTheFrame :
    narrow.FieldsFit ∧ narrow.FrameFits ∧ 5 ∈ narrow.chrl.codes.map Prod.fst ∧ 8 ∈ narrow.chrl.codes.map Prod.fst ∧
    1 ∈ narrow.nbstop.codes.map Prod.fst ∧ 2 ∈ narrow.nbstop.codes.map Prod.fst := by decide
theorem witness_AddressNamesOneRegister :
    Config.default.layoutUart.Wf ∧ Config.default.layoutUsart.Wf ∧ narrow.Wf ∧
    physAddr Config.default 3 .thr = physAddr Config.default 3 .thr := by decide
theorem witness_OperationTouchesOneChannel :
    ∃ t, exec (.configure 3 8) (base 4) = .next t ∧ (1 : Chan) ≠ chanOfInstr (.configure 3 8) ∧
      (5 : Nat) ≠ ((base 4).cfg.desc.get 3).rxPin ∧ (5 : Nat) ≠ ((base 4).cfg.desc.get 3).txPin ∧
      (0 : Nat) ≠ ((base 4).cfg.desc.get 3).vector := by
  obtain ⟨t, h⟩ := exists_next (r := exec (.configure 3 8) (base 4)) (by decide)
  exact ⟨t, h, by decide, by decide, by decide, by decide⟩
theorem witness_StoreFrame :
    ∃ t u, exec (.rbEnqueue 1 0x11) (base 4) = .next t ∧ storeTarget (.rbEnqueue 1 0x11) (base 4) = some (1, 0) ∧
      exec (.rbCount 1) (base 4) = .next u ∧ storeTarget (.rbCount 1) (base 4) = none ∧
      storeTarget (.pushReceived 0 0x11) (base 4) = none ∧
      storeTarget (.rxDispatch 0) (pendingByte 0 0x5A (up 4 0)) = some (0, 0) := by
  obtain ⟨t, h⟩ := exists_next (r := exec (.rbEnqueue 1 0x11) (base 4)) (by decide)
  obtain ⟨u, k⟩ := exists_next (r := exec (.rbCount 1) (base 4)) (by decide)
  exact ⟨t, u, h, by decide, k, by decide, by decide, by decide⟩
theorem witness_OnlyConfigureWritesConfiguration :
    ∃ t, (∀ c d, Instr.readByte 0 ≠ .configure c d) ∧ exec (.readByte 0) (up 4 0) = .next t ∧
      Instr.readByte 0 ≠ .rxDispatch 0 := by
  obtain ⟨t, h⟩ := exists_next (r := exec (.readByte 0) (up 4 0)) (by decide)
  exact ⟨t, by simp, h, by simp⟩

/-- The state before the step that runs CONFIGURE 0, 546. -/
def aboutToConfigure : State := { base 4 with port := [0x10, 0x22, 0x02], sched := [.fg] }

theorem witness_ChannelStateMovesForwardOnly :
    ∃ t, StateInv aboutToConfigure ∧ step aboutToConfigure = .next t ∧
      (aboutToConfigure.chan 0).st = .uninitialized ∧ (t.chan 0).st = .running ∧
      StateInv (up 4 0) ∧ ((up 4 0).chan 0).st = .running := by
  obtain ⟨t, h⟩ := exists_next (r := step aboutToConfigure) (by decide)
  have hr : after (step aboutToConfigure) (fun t => (t.chan 0).st == .running) = true := by decide
  rw [h] at hr
  exact ⟨t, by decide, h, by decide, by simpa [after, nextOf] using hr, by decide, by decide⟩
theorem witness_AtMostOneResponsePerStep : ∃ t,
    step { setRb 0 (rbOf 0 0 1 [0x7E]) (up 4 0) with port := [0x70], sched := [.fg] } = .next t ∧ t.resp.data ≠ 0 := by
  obtain ⟨t, h⟩ := exists_next
    (r := step { setRb 0 (rbOf 0 0 1 [0x7E]) (up 4 0) with port := [0x70], sched := [.fg] }) (by decide)
  have hr : after (step { setRb 0 (rbOf 0 0 1 [0x7E]) (up 4 0) with port := [0x70], sched := [.fg] })
    (fun t => t.resp.data != 0) = true := by decide
  rw [h] at hr
  exact ⟨t, h, by simpa [after, nextOf] using hr⟩

/-- Each of the five faults happens: a step that adds a response of that status. -/
theorem witness_FaultsComeFromTheirCauses :
    ∀ x ∈ [({ up 4 0 with port := [0x60], sched := [.fg] }, Status.emptyQueue),
        ({ base 4 with port := [0x71], sched := [.fg] }, .notConfigured),
        ({ up 4 0 with port := [0x10, 0, 0], sched := [.fg] }, .alreadyConfigured),
        ({ base 4 with port := [0x64], sched := [.fg] }, .illegalCommand),
        ({ up 4 0 with fg := .polling 0 0x55 0, sched := [.fg] }, .txTimeout)],
      after (step x.1) (fun t => t.resp.status == x.2 && t.responses != x.1.responses) = true := by decide
theorem witness_ResetValues : (base 255).cfg.Wf := by decide
theorem witness_ResetSatisfiesInvariant : Config.default.Wf ∧ (base 2).cfg.Wf ∧ (base 65536).cfg.Wf := by decide
theorem witness_StepKeepsInvariant : ∃ t, StateInv aboutToConfigure ∧ step aboutToConfigure = .next t := by
  obtain ⟨t, h⟩ := exists_next (r := step aboutToConfigure) (by decide)
  exact ⟨t, by decide, h⟩
theorem witness_IndicesStayInRangeAlongEveryRun :
    ∃ t, StateInv aboutToConfigure ∧ Host.Core.run Sys2Proof.core 2 aboutToConfigure = .next t := by
  obtain ⟨t, h⟩ := exists_next (r := Host.Core.run Sys2Proof.core 2 aboutToConfigure) (by decide)
  exact ⟨t, by decide, h⟩
theorem witness_StepNeverStops : StateInv State.reset := by decide

theorem witness_QuiescentStateRests :
    quiescent { up 4 0 with sched := [.irq 0] } ∧ quiescent { up 4 0 with port := [0x10, 0x22], sched := [.fg] } ∧
    ∃ w, Event.irq 0 = .irq w := ⟨by decide, by decide, 0, rfl⟩

/-- Two rounds that send the two bytes in flight, an arrival and its dispatch between them. -/
def twoRounds : List (List Event × List Event) := [([], []), ([.arrive 0 0xA0], [.irq 0])]

theorem witness_SendingDeliversExactlyItsBytes :
    StateInv { up 4 0 with fg := .sending 0 0x76 [0x3D], sched := twoRounds.flatMap (sendRound 0) ++ [.fg] } ∧
    twoRounds.length = [(0x76 : Byte), 0x3D].length ∧
    ∀ r ∈ twoRounds, r.1.all isBackground = true ∧ r.2.all isBackground = true := by decide
theorem witness_StalledTransmitHangsTheForeground :
    ∃ t, ((up 4 0).chan 0).per.txrdy = false ∧ .txReady 0 ∉ [Event.fg, .present [0x60], .arrive 0 0x01] ∧
      Host.Core.run Sys2Proof.core 3
        { up 4 0 with fg := .sending 0 0x41 [], sched := [.fg, .present [0x60], .arrive 0 0x01] } = .next t := by
  obtain ⟨t, h⟩ := exists_next (r := Host.Core.run Sys2Proof.core 3
    { up 4 0 with fg := .sending 0 0x41 [], sched := [.fg, .present [0x60], .arrive 0 0x01] }) (by decide)
  exact ⟨t, by decide, by decide, h⟩
theorem witness_BoundedTransmitTimesOut :
    { up 4 0 with fg := .polling 0 0x55 3, sched := List.replicate 4 .fg }.fg = .polling 0 0x55 3 ∧
    ((up 4 0).chan 0).per.txrdy = false ∧
    List.replicate 4 Event.fg = List.replicate ((3 : Half).toNat + 1) .fg ++ [] ∧
    [Event.fg] = List.replicate ((0 : Half).toNat + 1) .fg ++ [] := by decide

end Tests
end Sys2Proof
end

section
/-! PROOFS. IDXW, the width of the index registers (00_scope.md R5), and the result of RB.COUNT (40_ringbuffer.md R82). -/

namespace Sys2Proof
namespace Machine

/-! ### IDXW is the least width that holds the numbers below `N` -/

/-- Over the legal range of `N` the fifteen trials of the search reach a width that is enough. -/
theorem idxWidth_spec {n : Nat} (h1 : 1 ≤ n) (hn : n ≤ 65536) :
    1 ≤ idxWidth n ∧ idxWidth n ≤ 16 ∧ n ≤ 2 ^ idxWidth n ∧ ∀ w, 1 ≤ w → n ≤ 2 ^ w → idxWidth n ≤ w := by
  obtain ⟨henough, hleast, hlow, hhigh⟩ := leastDigits_spec (base := 2) (v := n - 1) (fuel := 15) (start := 1)
    (le_refl _) (by omega) (by omega)
  have hpred : ∀ m, n - 1 < m ↔ n ≤ m := fun m => by omega
  simp only [hpred] at henough hleast
  exact ⟨hlow, hhigh, henough, hleast⟩

/-! ### A number below `N` survives in IDXW bits -/

theorem toNat_ofNat_idxWidth {n i : Nat} (hn : n ≤ 65536) (h : i < n) : (BitVec.ofNat (idxWidth n) i).toNat = i := by
  rw [BitVec.toNat_ofNat, Nat.mod_eq_of_lt (lt_two_pow_idxWidth hn h)]

theorem toNat_headBits {n : Nat} {rb : Rb} (hn : n ≤ 65536) (h : rb.head < n) : (rb.headBits n).toNat = rb.head :=
  toNat_ofNat_idxWidth hn h

theorem toNat_tailBits {n : Nat} {rb : Rb} (hn : n ≤ 65536) (h : rb.tail < n) : (rb.tailBits n).toNat = rb.tail :=
  toNat_ofNat_idxWidth hn h

theorem toNat_countBits {n : Nat} {rb : Rb} (hn : n ≤ 65536) (h : rb.count < n) :
    (rb.countBits n).toNat = rb.count :=
  toNat_ofNat_idxWidth hn h

/-! ### RB.COUNT -/

theorem exec_rbCount (c : Chan) (s : State) :
    exec (.rbCount c) s = .next { s with
      ch := s.ch.set c { s.ch.get c with rbOut := .count (s.ch.get c).rb.count } } := by
  simp only [exec, execRbCount, setRbOut_eq, countOf, State.chan]

end Machine
end Sys2Proof
end

section
open Sys2Proof Sys2Proof.Machine

/-- Settles O16: `idxWidth_spec` for the width, and each index register is below `N`, which is at most `2 ^ IDXW`; the
value of IDXW bits that RB.COUNT gives is the view `countBits`. -/
theorem indexRegistersHaveWidthIdxw : Obligations.IndexRegistersHaveWidthIdxw := by
  unfold Obligations.IndexRegistersHaveWidthIdxw
  refine ⟨fun n h2 hn => idxWidth_spec (by omega) hn, fun n rb hn hwf => ?_, fun s c hn hwf => ?_⟩
  · obtain ⟨-, -, hhead, htail, hcount, -, -⟩ := hwf
    exact ⟨toNat_headBits hn hhead, toNat_tailBits hn htail, toNat_countBits hn hcount⟩
  · obtain ⟨-, -, -, -, hcount, -, -⟩ := hwf
    have hk : ((s.chan c).rb.countBits s.cfg.n).toNat = (s.ch.get c).rb.count := toNat_countBits hn hcount
    exact ⟨(s.chan c).rb.countBits s.cfg.n, by rw [hk, exec_rbCount], hk⟩

end

section
/-! PROOFS. The reset state (10_state.md R33), and the machine's invariant as reset makes it and every step keeps it. -/

namespace Sys2Proof

/-! ### Distinct channels have distinct vectors and pins (20_memory.md R44) -/

theorem PerChan.toList_eq_map_get {α : Type} (v : PerChan α) : v.toList = (List.finRange 4).map v.get := rfl

theorem Config.vector_ne {k : Config} (h : (k.desc.toList.map Descriptor.vector).Nodup) {c d : Chan} (hne : c ≠ d) :
    (k.desc.get c).vector ≠ (k.desc.get d).vector := by
  rw [PerChan.toList_eq_map_get, List.map_map] at h
  exact fun he => hne (List.inj_on_of_nodup_map h (List.mem_finRange c) (List.mem_finRange d) he)

/-- A pin of one channel's descriptor is no pin of another's. -/
theorem Config.pin_ne {k : Config} (h : k.pinIds.Nodup) {c d : Chan} (hne : c ≠ d) {q : Nat}
    (hq : q = (k.desc.get c).rxPin ∨ q = (k.desc.get c).txPin) :
    ¬ (q = (k.desc.get d).rxPin ∨ q = (k.desc.get d).txPin) := by
  rw [Config.pinIds, PerChan.toList_eq_map_get, List.nodup_flatMap, List.pairwise_map] at h
  have hsymm : Std.Symm fun a b : Chan =>
      Function.onFun List.Disjoint (fun d : Descriptor => [d.rxPin, d.txPin]) (k.desc.get a) (k.desc.get b) :=
    ⟨fun _ _ hab => List.Disjoint.symm hab⟩
  obtain ⟨-, hpairs⟩ := h
  have hdis := hpairs.forall (List.mem_finRange c) (List.mem_finRange d) hne
  exact fun hq' => hdis (by simpa using hq) (by simpa using hq')

theorem Config.rxPin_ne_txPin {k : Config} (h : k.pinIds.Nodup) (c : Chan) :
    (k.desc.get c).rxPin ≠ (k.desc.get c).txPin := by
  rw [Config.pinIds, PerChan.toList_eq_map_get, List.nodup_flatMap] at h
  obtain ⟨hown, -⟩ := h
  simpa using hown _ (List.mem_map_of_mem (List.mem_finRange c))

namespace Machine

variable {s t : State} {c d : Chan}

/-! ### The pins at reset -/

/-- The pins `m` with the two of channel `c` at their power-on values. -/
def powerOnPins (k : Config) (u : PerChan PowerOn) (m : List (Nat × Pin)) (c : Chan) : List (Nat × Pin) :=
  setCell (setCell m (k.desc.get c).rxPin (u.get c).rxPin) (k.desc.get c).txPin (u.get c).txPin

theorem resetWith_pins (k : Config) (u : PerChan PowerOn) :
    (State.resetWith k u).pins = [(0 : Chan), 1, 2, 3].foldl (powerOnPins k u) [] := rfl

theorem keysRise_foldl_powerOnPins (k : Config) (u : PerChan PowerOn) (cs : List Chan) {m : List (Nat × Pin)}
    (h : keysRise m) : keysRise (cs.foldl (powerOnPins k u) m) := by
  induction cs generalizing m with
  | nil => exact h
  | cons c cs ih => exact ih (keysRise_setCell (keysRise_setCell h _ _) _ _)

theorem keysRise_pins_resetWith (k : Config) (u : PerChan PowerOn) : keysRise (State.resetWith k u).pins := by
  rw [resetWith_pins]
  exact keysRise_foldl_powerOnPins k u _ .nil

/-- The two pins of a channel read as their power-on values once the channel is among those set. -/
theorem getCell_foldl_powerOnPins {k : Config} (hpins : k.pinIds.Nodup) (u : PerChan PowerOn) (m : List (Nat × Pin))
    (cs : List Chan) (hc : c ∈ cs) :
    getCell (cs.foldl (powerOnPins k u) m) (k.desc.get c).rxPin = some (u.get c).rxPin ∧
    getCell (cs.foldl (powerOnPins k u) m) (k.desc.get c).txPin = some (u.get c).txPin := by
  induction cs using List.reverseRecOn with
  | nil => cases hc
  | append_singleton cs e ih =>
    rw [List.foldl_concat, powerOnPins]
    by_cases hce : c = e
    · subst hce
      rw [getCell_setCell_ne _ _ (Config.rxPin_ne_txPin hpins c), getCell_setCell_same, getCell_setCell_same]
      exact ⟨rfl, rfl⟩
    · have hrx := Config.pin_ne hpins hce (.inl rfl)
      have htx := Config.pin_ne hpins hce (.inr rfl)
      rw [not_or] at hrx htx
      rw [getCell_setCell_ne _ _ hrx.2, getCell_setCell_ne _ _ hrx.1, getCell_setCell_ne _ _ htx.2,
        getCell_setCell_ne _ _ htx.1]
      exact ih (by simpa [hce] using hc)

theorem pinGet_resetWith {k : Config} (hpins : k.pinIds.Nodup) (u : PerChan PowerOn) (c : Chan) :
    pinGet (k.desc.get c).rxPin (State.resetWith k u) = (u.get c).rxPin ∧
    pinGet (k.desc.get c).txPin (State.resetWith k u) = (u.get c).txPin := by
  obtain ⟨hrx, htx⟩ := getCell_foldl_powerOnPins hpins u [] [0, 1, 2, 3] (c := c) (by fin_cases c <;> simp)
  rw [pinGet, pinGet, resetWith_pins, hrx, htx]
  exact ⟨rfl, rfl⟩

/-! ### The reset state -/

@[simp] theorem chan_resetWith (k : Config) (u : PerChan PowerOn) (c : Chan) :
    (State.resetWith k u).chan c = Channel.reset k.n (u.get c) := PerChan.get_tabulate _ c

theorem channelInv_resetWith {k : Config} (h : k.Wf) (u : PerChan PowerOn) (c : Chan) :
    ChannelInv c (State.resetWith k u) := by
  obtain ⟨hn, -⟩ := h
  simp only [ChannelInv, chan_resetWith]
  refine ⟨reset_wf hn, ?_⟩
  simp [Channel.reset, Periph.reset, State.resetWith]

theorem stateInv_resetWith {k : Config} (h : k.Wf) (u : PerChan PowerOn) : StateInv (State.resetWith k u) := by
  refine ⟨h, channelInv_resetWith h u, .nil, keysRise_pins_resetWith k u, ?_, rfl⟩
  exact fun c (hc : none = some c) => nomatch hc

theorem wf_default : Config.default.Wf := by decide

/-! ### A busy foreground accepts no command -/

theorem whenRunning_busy (k : State → Result) (h : s.fg ≠ .idle) : whenRunning c s k = .next s := accept_busy _ h

theorem exec_command_busy {i : Instr} (hi : isCommand i = true) (h : s.fg ≠ .idle) : exec i s = .next s := by
  cases i with
  | configure => simp only [exec, execConfigure, accept_busy _ h]
  | writeByte | writeText | writeUdec | writeHex32 | readByte | pendingCount | writeByteBounded =>
    simp only [exec, execWriteByte, execWriteText, execWriteUdec, execWriteHex32, execReadByte, execPendingCount,
      execWriteByteBounded, whenRunning_busy _ h]
  | rbEnqueue | rbDequeue | rbCount | pushReceived | rxDispatch => cases hi

/-! ### What the invariant gives -/

theorem StateInv.two_le_n (h : StateInv s) : 2 ≤ s.cfg.n := by
  obtain ⟨⟨hn, -⟩, -⟩ := h
  exact hn

theorem StateInv.rb_wf (h : StateInv s) (c : Chan) : (s.chan c).rb.Wf s.cfg.n := by
  obtain ⟨-, hch, -⟩ := h
  exact (hch c).1

theorem StateInv.running_of_target (h : StateInv s) (hf : s.fg.target = some c) : (s.chan c).st = .running := by
  obtain ⟨-, -, -, -, hfg, -⟩ := h
  exact hfg c hf

theorem StateInv.running_of_sending (h : StateInv s) {b : Byte} {rest : List Byte} (hf : s.fg = .sending c b rest) :
    (s.chan c).st = .running := h.running_of_target (by rw [hf]; rfl)

theorem StateInv.running_of_polling (h : StateInv s) {b : Byte} {left : Half} (hf : s.fg = .polling c b left) :
    (s.chan c).st = .running := h.running_of_target (by rw [hf]; rfl)

/-! ### The invariant and single fields -/

theorem stateInv_respond (h : StateInv s) (st : Status) (d : Half) : StateInv (respond st d s) := by
  obtain ⟨hwf, hch, hintc, hpins, -, -⟩ := h
  refine ⟨hwf, hch, hintc, hpins, fun c (hc : none = some c) => (nomatch hc), ?_⟩
  rw [respond_resp, respond_responses, List.getLast?_concat]
  rfl

theorem stateInv_setFg (h : StateInv s) {f : Fg} (hf : f.target = some c) (hr : (s.chan c).st = .running) :
    StateInv { s with fg := f } := by
  obtain ⟨hwf, hch, hintc, hpins, -, hresp⟩ := h
  refine ⟨hwf, hch, hintc, hpins, fun d hd => ?_, hresp⟩
  obtain rfl : c = d := Option.some.inj (hf.symm.trans hd)
  exact hr

theorem stateInv_startSending (h : StateInv s) (L : List Byte) (hr : (s.chan c).st = .running) :
    StateInv (startSending c L s) := by
  obtain ⟨-, he⟩ | ⟨b, rest, -, he⟩ := startSending_cases (c := c) L s
  · rw [he]; exact stateInv_respond h _ _
  · rw [he]; exact stateInv_setFg h rfl hr

/-! ### The invariant and one channel -/

/-- `y` has what CONFIGURE gave `x`: the fields the invariant ties to the channel state, and that state. -/
structure SameConfiguration (x y : Channel) : Prop where
  st       : y.st = x.st
  baud     : y.baud = x.baud
  rxEn     : y.per.rxEn = x.per.rxEn
  txEn     : y.per.txEn = x.per.txEn
  ierRxrdy : y.per.ierRxrdy = x.per.ierRxrdy
  brgr     : y.per.brgr = x.per.brgr
  mode     : y.per.mode = x.per.mode

/-- What the invariant of a channel reads of a state. -/
theorem channelInv_congr (h : ChannelInv d s) (hcfg : t.cfg = s.cfg) (hchan : t.chan d = s.chan d)
    (hvec : (descOf d s).vector ∈ t.intc ↔ (descOf d s).vector ∈ s.intc)
    (hrx : pinGet (descOf d s).rxPin t = pinGet (descOf d s).rxPin s)
    (htx : pinGet (descOf d s).txPin t = pinGet (descOf d s).txPin s)
    (hlog : t.extlog.filterMap (thrByte d) = s.extlog.filterMap (thrByte d)) : ChannelInv d t := by
  have hdesc : descOf d t = descOf d s := by rw [descOf, descOf, hcfg]
  simp only [ChannelInv, pinConfigured, hcfg, hchan, hdesc, hvec, hrx, htx, hlog]
  exact h

/-- A channel replaced under its configuration and accesses logged keep the invariant, where the line gains the
accesses' THR bytes and the channel is Running if there are any. -/
theorem stateInv_setChan_log (h : StateInv s) {x : Channel} {log : List Access} (hrb : x.rb.Wf s.cfg.n)
    (hsame : SameConfiguration (s.chan c) x) (hline : x.line = (s.chan c).line ++ log.filterMap (thrByte c))
    (hother : ∀ d, d ≠ c → log.filterMap (thrByte d) = [])
    (hrun : log.filterMap (thrByte c) = [] ∨ (s.chan c).st = .running) :
    StateInv { s with ch := s.ch.set c x, extlog := s.extlog ++ log } := by
  have hchan : ∀ d, ({ s with ch := s.ch.set c x, extlog := s.extlog ++ log } : State).chan d =
      if d = c then x else s.chan d := fun d => PerChan.get_set s.ch c d x
  obtain ⟨hwf, hch, hintc, hpins, hfg, hresp⟩ := h
  refine ⟨hwf, fun d => ?_, hintc, hpins, fun d hd => ?_, hresp⟩
  · by_cases hdc : d = c
    · subst hdc
      obtain ⟨-, hst, hier, hvec, hconf, hempty, hlog⟩ := hch d
      simp only [ChannelInv, hchan, if_pos, hsame.st, hsame.baud, hsame.rxEn, hsame.txEn, hsame.ierRxrdy, hsame.brgr,
        hsame.mode, hline, List.filterMap_append]
      refine ⟨hrb, hst, hier, hvec, hconf, fun hu => ?_, by rw [hlog]⟩
      have hnone := hrun.resolve_right (by simp [hu])
      rw [hnone, hempty hu]; rfl
    · exact channelInv_congr (hch d) rfl (by rw [hchan, if_neg hdc]) Iff.rfl rfl rfl
        (by simp [hother d hdc])
  · rw [hchan]
    split
    · next hdc => subst hdc; exact hsame.st.trans (hfg d hd)
    · exact hfg d hd

theorem stateInv_setChan (h : StateInv s) {x : Channel} (hrb : x.rb.Wf s.cfg.n)
    (hsame : SameConfiguration (s.chan c) x) (hline : x.line = (s.chan c).line) :
    StateInv { s with ch := s.ch.set c x } := by
  simpa using stateInv_setChan_log h (log := []) hrb hsame (by simpa using hline) (fun _ _ => rfl) (.inl rfl)

theorem stateInv_setRb (h : StateInv s) {rb : Rb} (hrb : rb.Wf s.cfg.n) : StateInv (setRb c rb s) := by
  rw [setRb_eq]
  exact stateInv_setChan h hrb ⟨rfl, rfl, rfl, rfl, rfl, rfl, rfl⟩ rfl

theorem stateInv_setRbOut (h : StateInv s) (r : RbResult) : StateInv (setRbOut c r s) := by
  rw [setRbOut_eq]
  exact stateInv_setChan h (h.rb_wf c) ⟨rfl, rfl, rfl, rfl, rfl, rfl, rfl⟩ rfl

/-- The flags and the holding register are free of the invariant (43_channel_mux.md R147, R148). -/
theorem stateInv_modPer_flags (h : StateInv s) (rx tx : Periph → Bool) (b : Periph → Byte) :
    StateInv (modPer c (fun p => { p with rxrdy := rx p, txrdy := tx p, rhr := b p }) s) := by
  rw [modPer_eq]
  exact stateInv_setChan h (h.rb_wf c) ⟨rfl, rfl, rfl, rfl, rfl, rfl, rfl⟩ rfl

theorem stateInv_readSr (h : StateInv s) : StateInv (readSr c s) := by
  have hset := stateInv_setChan_log h (c := c) (x := s.chan c)
    (log := [.readSr c (s.chan c).per.rxrdy (s.chan c).per.txrdy]) (h.rb_wf c) ⟨rfl, rfl, rfl, rfl, rfl, rfl, rfl⟩
    (by simp [thrByte]) (fun _ _ => rfl) (.inl rfl)
  rwa [State.chan, PerChan.set_get] at hset

/-- The byte handed to the transmitter is on the line and in the log (43_channel_mux.md R149). -/
theorem stateInv_tx_readSr (h : StateInv s) (b : Byte) (hr : (s.chan c).st = .running)
    (htx : (s.chan c).per.txrdy = true) : StateInv (tx c b (readSr c s)) := by
  rw [tx_readSr b htx]
  refine stateInv_setChan_log h (h.rb_wf c) ⟨rfl, rfl, rfl, rfl, rfl, rfl, rfl⟩ ?_ (fun d hd => ?_) (.inr hr)
  · simp [thrByte, State.chan, List.filterMap_cons]
  · simp [thrByte, hd.symm]

/-- The reads and the push of a pending dispatch. -/
theorem stateInv_dispatch (h : StateInv s) {rb : Rb} (hrb : rb.Wf s.cfg.n) (txrdy : Bool) (b : Byte) :
    StateInv { s with
      ch := s.ch.set c { s.chan c with rb := rb, per := { (s.chan c).per with rxrdy := false } },
      extlog := s.extlog ++ [.readSr c true txrdy, .readRhr c b] } :=
  stateInv_setChan_log h hrb ⟨rfl, rfl, rfl, rfl, rfl, rfl, rfl⟩ (by simp [thrByte]) (fun _ _ => rfl) (.inl rfl)

/-! ### The invariant and CONFIGURE -/

theorem configureSteps_thrBytes (div : Half) :
    (configureSteps c div s).extlog.filterMap (thrByte d) = s.extlog.filterMap (thrByte d) := by
  simp [configureSteps_extlog, thrByte]

theorem configureSteps_cfg (div : Half) : (configureSteps c div s).cfg = s.cfg := (configureSteps_fg div s).1

theorem channelInv_configureSteps_same (h : ChannelInv c s) (div : Half) : ChannelInv c (configureSteps c div s) := by
  have hdesc : descOf c (configureSteps c div s) = descOf c s := by rw [descOf, descOf, configureSteps_cfg]
  obtain ⟨hrb, -, -, -, -, -, hlog⟩ := h
  simp only [ChannelInv, configureSteps_chan_same, configureSteps_cfg, hdesc, configureSteps_intc, mem_addKey,
    configureSteps_thrBytes, pinConfigured, configureSteps_pins]
  refine ⟨hrb, ?_⟩
  simp [hlog]

/-- Another channel keeps its invariant, since its vector and its pins are others (20_memory.md R44). -/
theorem channelInv_configureSteps_ne (h : StateInv s) (div : Half) (hdc : d ≠ c) :
    ChannelInv d (configureSteps c div s) := by
  obtain ⟨⟨-, -, -, hvectors, hpinIds, -⟩, hch, -⟩ := h
  refine channelInv_congr (hch d) (configureSteps_cfg div) (configureSteps_chan_ne div hdc) ?_ ?_ ?_
    (configureSteps_thrBytes div)
  · rw [configureSteps_intc, mem_addKey]
    exact or_iff_right (Config.vector_ne hvectors hdc)
  · rw [configureSteps_pins]
    exact if_neg (Config.pin_ne hpinIds hdc (.inl rfl))
  · rw [configureSteps_pins]
    exact if_neg (Config.pin_ne hpinIds hdc (.inr rfl))

theorem stateInv_configureSteps (h : StateInv s) (div : Half) (hf : s.fg = .idle) :
    StateInv (configureSteps c div s) := by
  obtain ⟨hcfg, hfg, hresp, hresps, -⟩ := configureSteps_fg (c := c) div s
  have hother := fun d => channelInv_configureSteps_ne (d := d) (c := c) h div
  obtain ⟨hwf, hch, hintc, hpins, -, hlast⟩ := h
  refine ⟨by rw [hcfg]; exact hwf, fun d => ?_, ?_, configureSteps_keysRise div hpins, fun d hd => ?_, ?_⟩
  · by_cases hdc : d = c
    · subst hdc; exact channelInv_configureSteps_same (hch d) div
    · exact hother d hdc
  · rw [configureSteps_intc]; exact rising_addKey hintc _
  · rw [hfg, hf] at hd; cases hd
  · rw [hresp, hresps]; exact hlast

/-! ### Every operation and every step keeps the invariant -/

theorem pushedRb_wf (h : StateInv s) {b : Byte} {rb : Rb} (hp : pushedRb s c b rb) : rb.Wf s.cfg.n := by
  obtain ⟨-, he⟩ | ⟨-, rfl⟩ := hp
  · exact enqueue_wf h.two_le_n (h.rb_wf c) he
  · exact h.rb_wf c

theorem exec_keeps_stateInv (h : StateInv s) {i : Instr} (he : exec i s = .next t) : StateInv t := by
  cases exec_next he with
  | unchanged => exact h
  | completes | notConfigured | alreadyConfigured => exact stateInv_respond h _ _
  | emptyQueue => exact stateInv_respond (s := { s with draws := s.draws + 1 }) h _ _
  | starts f _ _ hr hf => exact stateInv_setFg h hf hr
  | reads v rb _ _ h0 hd => exact stateInv_respond (stateInv_setRb h (dequeue_wf (h.rb_wf _) h0 hd)) _ _
  | configures d _ hf _ => exact stateInv_respond (stateInv_configureSteps h d hf) _ _
  | enqueues b rb _ hq => exact stateInv_setRb h (enqueue_wf h.two_le_n (h.rb_wf _) hq)
  | answers r n _ => exact stateInv_setRbOut (s := { s with draws := n }) h r
  | dequeues v rb _ h0 hd => exact stateInv_setRbOut (stateInv_setRb h (dequeue_wf (h.rb_wf _) h0 hd)) _
  | dispatches rb _ _ hp => exact stateInv_dispatch h (pushedRb_wf h hp) _ _

/-- The schedule and port CMD are free of the invariant, so the event may be taken off first. -/
theorem step_keeps_stateInv (h : StateInv s) (hs : step s = .next t) : StateInv t := by
  have hin : ∀ es p, StateInv { s with sched := es, port := p } := fun _ _ => h
  cases step_next hs with
  | stutter | nothing | presents => exact h
  | commands es i p t _ _ _ he => exact exec_keeps_stateInv (hin es p) he
  | operates e es i t _ _ he => exact exec_keeps_stateInv (hin es s.port) he
  | illegal b p es => exact stateInv_respond (hin es p) _ _
  | transmits es c b rest _ hf htx =>
    have hr := h.running_of_sending hf
    refine stateInv_startSending (stateInv_tx_readSr (hin es s.port) b hr htx) rest ?_
    rw [tx, regWrite_chan_same]; exact hr
  | timesOut es => exact stateInv_respond (hin es s.port) _ _
  | pollSends es c b left _ hf htx =>
    exact stateInv_respond (stateInv_tx_readSr (hin es s.port) b (h.running_of_polling hf) htx) _ _
  | polls es c b left _ hf _ _ =>
    exact stateInv_setFg (stateInv_readSr (hin es s.port)) rfl (h.running_of_polling hf)
  | arrives es c b _ _ => exact stateInv_modPer_flags (hin es s.port) (fun _ => true) Periph.txrdy fun _ => b
  | readies es c _ _ _ => exact stateInv_modPer_flags (hin es s.port) Periph.rxrdy (fun _ => true) Periph.rhr

end Machine
end Sys2Proof
end

section
open Sys2Proof Sys2Proof.Machine

/-- Settles O53: a step is an operation, a move of the foreground or of a peripheral, or nothing (`step_next`), and each
keeps the invariant (`exec_keeps_stateInv` and the `stateInv_` lemmas of the single updates). -/
theorem stepKeepsInvariant : Obligations.StepKeepsInvariant := by
  unfold Obligations.StepKeepsInvariant
  exact fun s t h hs => step_keeps_stateInv h hs

/-- Settles O51: each channel is `Channel.reset`, and distinct pins each keep the power-on value they were set to. -/
theorem resetValues : Obligations.ResetValues := by
  unfold Obligations.ResetValues
  intro k u s
  refine ⟨fun c => ?_, fun v => List.not_mem_nil, rfl, rfl, rfl, fun hwf c => ?_⟩
  · rw [chan_resetWith]
    exact ⟨rfl, rfl, rfl, fun _ => rfl, rfl, rfl, rfl, rfl⟩
  · obtain ⟨-, -, -, -, hpins, -⟩ := hwf
    exact pinGet_resetWith hpins u c

/-- Settles O23: `accept` leaves the state to a busy foreground. -/
theorem commandWaitsForIdle : Obligations.CommandWaitsForIdle := by
  unfold Obligations.CommandWaitsForIdle
  exact fun s i hi hf => exec_command_busy hi hf

/-- Settles O52: for legal parameters each channel's buffer is empty and well formed and nothing is enabled, sent or
answered; the default parameters are legal. -/
theorem resetSatisfiesInvariant : Obligations.ResetSatisfiesInvariant := by
  unfold Obligations.ResetSatisfiesInvariant
  exact ⟨fun k u h => stateInv_resetWith h u, stateInv_resetWith wf_default _⟩

end

section
/-! PROOFS. The four formats (30_encoding.md R61 to R67): what each row of the opcode map decodes to, which headers are
illegal, and that decoder and encoder undo each other. -/

namespace Sys2Proof

/-! ### The eight rows of the opcode map (30_encoding.md R63) -/

theorem decodeCmd_configure (c : Chan) (rest : List Byte) :
    decodeCmd (header 0x1 c :: rest) = complete (readHalf rest) (.configure c) := by
  simp [decodeCmd, header_row, headerChan_header]

theorem decodeCmd_writeByte (c : Chan) (rest : List Byte) :
    decodeCmd (header 0x2 c :: rest) = complete (readOne rest) (.writeByte c) := by
  simp [decodeCmd, header_row, headerChan_header]

theorem decodeCmd_writeText (c : Chan) (rest : List Byte) :
    decodeCmd (header 0x3 c :: rest) = complete (readText rest) (.writeText c) := by
  simp [decodeCmd, header_row, headerChan_header]

theorem decodeCmd_writeUdec (c : Chan) (rest : List Byte) :
    decodeCmd (header 0x4 c :: rest) = complete (readWord rest) (.writeUdec c) := by
  simp [decodeCmd, header_row, headerChan_header]

theorem decodeCmd_writeHex32 (c : Chan) (rest : List Byte) :
    decodeCmd (header 0x5 c :: rest) = complete (readWord rest) (.writeHex32 c) := by
  simp [decodeCmd, header_row, headerChan_header]

theorem decodeCmd_readByte (c : Chan) (rest : List Byte) :
    decodeCmd (header 0x6 c :: rest) = .ok (.readByte c) rest := by
  simp [decodeCmd, header_row, headerChan_header]

theorem decodeCmd_pendingCount (c : Chan) (rest : List Byte) :
    decodeCmd (header 0x7 c :: rest) = .ok (.pendingCount c) rest := by
  simp [decodeCmd, header_row, headerChan_header]

theorem decodeCmd_writeByteBounded (c : Chan) (rest : List Byte) :
    decodeCmd (header 0x8 c :: rest) = complete (readByteLimit rest) (fun p => .writeByteBounded c p.1 p.2) := by
  simp [decodeCmd, header_row, headerChan_header]

/-! ### Every header byte selects one of the rows or is illegal (30_encoding.md R65) -/

theorem legalHeader_cases : ∀ h : Byte, legalHeader h = true →
    ∃ c, h = header 0x1 c ∨ h = header 0x2 c ∨ h = header 0x3 c ∨ h = header 0x4 c ∨ h = header 0x5 c ∨
      h = header 0x6 c ∨ h = header 0x7 c ∨ h = header 0x8 c := by decide

theorem row_of_illegalHeader : ∀ h : Byte, legalHeader h = false →
    h &&& 0xFC#8 ≠ 0x10#8 ∧ h &&& 0xFC#8 ≠ 0x20#8 ∧ h &&& 0xFC#8 ≠ 0x30#8 ∧ h &&& 0xFC#8 ≠ 0x40#8 ∧
    h &&& 0xFC#8 ≠ 0x50#8 ∧ h &&& 0xFC#8 ≠ 0x60#8 ∧ h &&& 0xFC#8 ≠ 0x70#8 ∧ h &&& 0xFC#8 ≠ 0x80#8 := by decide

theorem decodeCmd_illegalHeader {h : Byte} (hh : legalHeader h = false) (rest : List Byte) :
    decodeCmd (h :: rest) = .illegal h rest := by
  obtain ⟨h1, h2, h3, h4, h5, h6, h7, h8⟩ := row_of_illegalHeader h hh
  simp only [decodeCmd, if_neg, h1, h2, h3, h4, h5, h6, h7, h8, not_false_eq_true]

theorem complete_eq_ok {α : Type} {operand : Option (α × List Byte)} {f : α → Instr} {i : Instr} {rest : List Byte}
    (h : complete operand f = .ok i rest) : ∃ x, operand = some (x, rest) ∧ i = f x := by
  obtain _ | ⟨x, after⟩ := operand
  · cases h
  · cases h; exact ⟨x, rfl, rfl⟩

theorem complete_ok_or_incomplete {α : Type} (operand : Option (α × List Byte)) (f : α → Instr) :
    (∃ i rest, complete operand f = .ok i rest) ∨ complete operand f = .incomplete := by
  cases operand with
  | none => exact .inr rfl
  | some p => exact .inl ⟨_, _, rfl⟩

/-- A header that selects a row is never reported illegal, whatever follows it. -/
theorem decodeCmd_legalHeader {h : Byte} (hh : legalHeader h = true) (rest : List Byte) :
    (∃ i r, decodeCmd (h :: rest) = .ok i r) ∨ decodeCmd (h :: rest) = .incomplete := by
  obtain ⟨c, rfl | rfl | rfl | rfl | rfl | rfl | rfl | rfl⟩ := legalHeader_cases h hh
  · rw [decodeCmd_configure]; exact complete_ok_or_incomplete _ _
  · rw [decodeCmd_writeByte]; exact complete_ok_or_incomplete _ _
  · rw [decodeCmd_writeText]; exact complete_ok_or_incomplete _ _
  · rw [decodeCmd_writeUdec]; exact complete_ok_or_incomplete _ _
  · rw [decodeCmd_writeHex32]; exact complete_ok_or_incomplete _ _
  · exact .inl ⟨_, _, decodeCmd_readByte c rest⟩
  · exact .inl ⟨_, _, decodeCmd_pendingCount c rest⟩
  · rw [decodeCmd_writeByteBounded]; exact complete_ok_or_incomplete _ _

/-- What the decoder of port CMD can answer. -/
theorem decodeCmd_cases (bytes : List Byte) :
    (∃ i rest, decodeCmd bytes = .ok i rest) ∨ decodeCmd bytes = .incomplete ∨
    ∃ h rest, bytes = h :: rest ∧ legalHeader h = false ∧ decodeCmd bytes = .illegal h rest := by
  cases bytes with
  | nil => exact .inr (.inl rfl)
  | cons h rest =>
    cases hh : legalHeader h with
    | false => exact .inr (.inr ⟨h, rest, rfl, hh, decodeCmd_illegalHeader hh rest⟩)
    | true => exact (decodeCmd_legalHeader hh rest).imp_right .inl

theorem decodeCmd_eq_illegal_iff {h : Byte} {rest : List Byte} :
    decodeCmd (h :: rest) = .illegal h rest ↔ legalHeader h = false := by
  refine ⟨fun hd => ?_, fun hh => decodeCmd_illegalHeader hh rest⟩
  obtain ⟨i, r, hok⟩ | hinc | ⟨g, r, he, hg, -⟩ := decodeCmd_cases (h :: rest)
  · rw [hd] at hok; cases hok
  · rw [hd] at hinc; cases hinc
  · cases he; exact hg

/-! ### What an operand reader takes is the encoding of what it returns (30_encoding.md R62) -/

theorem readHalf_some {bytes rest : List Byte} {v : Half} (h : readHalf bytes = some (v, rest)) :
    bytes = halfBytes v ++ rest := by
  unfold readHalf at h
  split at h
  · next b1 b2 r => cases h; rw [halfBytes_append]; rfl
  · cases h

theorem readWord_some {bytes rest : List Byte} {v : Word} (h : readWord bytes = some (v, rest)) :
    bytes = wordBytes v ++ rest := by
  unfold readWord at h
  split at h
  · next b1 b2 b3 b4 r => cases h; rw [wordBytes_append]; rfl
  · cases h

theorem readOne_some {bytes rest : List Byte} {b : Byte} (h : readOne bytes = some (b, rest)) : bytes = b :: rest := by
  cases bytes with
  | nil => cases h
  | cons b' r => cases h; rfl

theorem readByteLimit_some {bytes rest : List Byte} {b : Byte} {limit : Half}
    (h : readByteLimit bytes = some ((b, limit), rest)) : bytes = b :: (halfBytes limit ++ rest) := by
  cases bytes with
  | nil => cases h
  | cons b' r =>
    obtain ⟨⟨limit', after⟩, hr, he⟩ := Option.map_eq_some_iff.1 h
    cases he
    rw [readHalf_some hr]

/-! ### Decoder and encoder undo each other on port CMD -/

theorem decodeCmd_text (c : Chan) {text : List Byte} (h : text.all (· != Config.terminator) = true)
    (rest : List Byte) :
    decodeCmd (header 0x3 c :: (text ++ Config.terminator :: rest)) = .ok (.writeText c text) rest := by
  rw [decodeCmd_writeText, readText_append text rest h]; rfl

theorem decodeCmd_encode {i : Instr} {bytes : List Byte} (hi : i.wf = true) (he : encode i = .cmd bytes)
    (rest : List Byte) : decodeCmd (bytes ++ rest) = .ok i rest := by
  cases i with
  | configure c div =>
    cases he
    rw [List.cons_append, decodeCmd_configure, readHalf_halfBytes]; rfl
  | writeByte c b => cases he; exact decodeCmd_writeByte c (b :: rest)
  | writeText c text =>
    cases he
    rw [List.cons_append, List.append_assoc]
    exact decodeCmd_text c hi rest
  | writeUdec c v =>
    cases he
    rw [List.cons_append, decodeCmd_writeUdec, readWord_wordBytes]; rfl
  | writeHex32 c v =>
    cases he
    rw [List.cons_append, decodeCmd_writeHex32, readWord_wordBytes]; rfl
  | readByte c => cases he; exact decodeCmd_readByte c rest
  | pendingCount c => cases he; exact decodeCmd_pendingCount c rest
  | writeByteBounded c b limit =>
    cases he
    rw [List.cons_append, List.cons_append, decodeCmd_writeByteBounded, readByteLimit_bytes]; rfl
  | rbEnqueue | rbDequeue | rbCount | pushReceived | rxDispatch => cases he

theorem decodeCmd_encode_nil {i : Instr} {bytes : List Byte} (hi : i.wf = true) (he : encode i = .cmd bytes) :
    decodeCmd bytes = .ok i [] := by
  rw [← List.append_nil bytes]
  exact decodeCmd_encode hi he []

theorem encode_of_decodeCmd {bytes rest : List Byte} {i : Instr} (h : decodeCmd bytes = .ok i rest) :
    i.wf = true ∧ ∃ used, encode i = .cmd used ∧ bytes = used ++ rest := by
  cases bytes with
  | nil => cases h
  | cons b bs =>
    cases hb : legalHeader b with
    | false => rw [decodeCmd_illegalHeader hb] at h; cases h
    | true =>
      obtain ⟨c, rfl | rfl | rfl | rfl | rfl | rfl | rfl | rfl⟩ := legalHeader_cases b hb
      · rw [decodeCmd_configure] at h
        obtain ⟨div, ho, rfl⟩ := complete_eq_ok h
        rw [readHalf_some ho]; exact ⟨rfl, _, rfl, rfl⟩
      · rw [decodeCmd_writeByte] at h
        obtain ⟨b, ho, rfl⟩ := complete_eq_ok h
        rw [readOne_some ho]; exact ⟨rfl, _, rfl, rfl⟩
      · rw [decodeCmd_writeText] at h
        obtain ⟨text, ho, rfl⟩ := complete_eq_ok h
        obtain ⟨hwf, rfl⟩ := readText_some ho
        exact ⟨hwf, _, rfl, by simp⟩
      · rw [decodeCmd_writeUdec] at h
        obtain ⟨v, ho, rfl⟩ := complete_eq_ok h
        rw [readWord_some ho]; exact ⟨rfl, _, rfl, rfl⟩
      · rw [decodeCmd_writeHex32] at h
        obtain ⟨v, ho, rfl⟩ := complete_eq_ok h
        rw [readWord_some ho]; exact ⟨rfl, _, rfl, rfl⟩
      · rw [decodeCmd_readByte] at h
        cases h; exact ⟨rfl, _, rfl, rfl⟩
      · rw [decodeCmd_pendingCount] at h
        cases h; exact ⟨rfl, _, rfl, rfl⟩
      · rw [decodeCmd_writeByteBounded] at h
        obtain ⟨⟨b, limit⟩, ho, rfl⟩ := complete_eq_ok h
        rw [readByteLimit_some ho]; exact ⟨rfl, _, rfl, rfl⟩

/-! ### The internal ports (30_encoding.md R67) -/

theorem decodeRbp_noOperation (c : Chan) {w : BitVec 10} (h : w.extractLsb' 8 2 = 0b00#2) :
    decodeRbp c w = .noOperation := by
  simp [decodeRbp, h]

theorem decodeRbp_enqueue (c : Chan) {w : BitVec 10} (h : w.extractLsb' 8 2 = 0b01#2) :
    decodeRbp c w = .ok (.rbEnqueue c (w.extractLsb' 0 8)) [] := by
  simp [decodeRbp, h]

theorem decodeRbp_dequeue (c : Chan) {w : BitVec 10} (h : w.extractLsb' 8 2 = 0b10#2) :
    decodeRbp c w = .ok (.rbDequeue c) [] := by
  simp [decodeRbp, h]

theorem decodeRbp_count (c : Chan) {w : BitVec 10} (h : w.extractLsb' 8 2 = 0b11#2) :
    decodeRbp c w = .ok (.rbCount c) [] := by
  simp [decodeRbp, h]

theorem decodeRbp_enqueue_append (c : Chan) (b : Byte) : decodeRbp c (0b01#2 ++ b) = .ok (.rbEnqueue c b) [] := by
  rw [decodeRbp_enqueue c (extract_high _ _), extract_low]

theorem decodePrx_append (c : Chan) (b : Byte) : decodePrx (bitsOfChan c ++ b) = .pushReceived c b := by
  rw [decodePrx, extract_high, extract_low, chanOf_bitsOfChan]

theorem decode_encode {i : Instr} (hi : i.wf = true) : decode (encode i) = .ok i [] := by
  cases i with
  | configure | writeByte | writeText | writeUdec | writeHex32 | readByte | pendingCount | writeByteBounded =>
    exact decodeCmd_encode_nil hi rfl
  | rbEnqueue c b => exact decodeRbp_enqueue_append c b
  | rbDequeue c => exact decodeRbp_dequeue c (extract_high 0b10#2 0#8)
  | rbCount c => exact decodeRbp_count c (extract_high 0b11#2 0#8)
  | pushReceived c b => exact congrArg (Decoded.ok · []) (decodePrx_append c b)
  | rxDispatch c => rfl

/-! ### Words written as numbers -/

theorem header_ofNat : ∀ c : Chan, ∀ op < 16,
    BitVec.ofNat 8 (16 * op + c.val) = header (BitVec.ofNat 4 op) c := by decide

theorem legalHeader_ofNat : ∀ c : Chan, ∀ op < 16, ∀ rsv < 4, op = 0 ∨ 9 ≤ op ∨ rsv ≠ 0 →
    legalHeader (BitVec.ofNat 8 (16 * op + 4 * rsv + c.val)) = false := by decide

theorem bitsOfChan_eq_ofNat : ∀ c : Chan, bitsOfChan c = BitVec.ofNat 2 c.val := by decide

/-- 30_encoding.md R65, field by field. -/
theorem legalHeader_eq_false_iff : ∀ h : Byte, legalHeader h = false ↔
    ((h.extractLsb' 4 4).toNat = 0 ∨ 9 ≤ (h.extractLsb' 4 4).toNat ∨ h.extractLsb' 2 2 ≠ 0#2) := by decide

end Sys2Proof
end

section
open Sys2Proof Sys2Proof.Machine

/-- Settles O2: row by row the operand reader undoes the operand's bytes (`decodeCmd_encode`), and the words of the
other three ports split into their fields. -/
theorem decodeOfEncodeIsTheOperation : Obligations.DecodeOfEncodeIsTheOperation := by
  unfold Obligations.DecodeOfEncodeIsTheOperation
  exact fun i hi => ⟨fun bytes he rest => decodeCmd_encode hi he rest, decode_encode hi⟩

/-- Settles O3: a header that selects a row is the header of that row (`legalHeader_cases`), and what an operand reader
takes is the encoding of what it returns. -/
theorem decodedCommandReencodesToItsBytes : Obligations.DecodedCommandReencodesToItsBytes := by
  unfold Obligations.DecodedCommandReencodesToItsBytes
  exact fun bytes rest i h => encode_of_decodeCmd h

/-- Settles O4: the header of an operation is `16 * op + ch` (`header_ofNat`), each row has its equation, and the
headers of no row are illegal. -/
theorem opcodeMapOfPortCmd : Obligations.OpcodeMapOfPortCmd := by
  unfold Obligations.OpcodeMapOfPortCmd
  intro c rest h
  have hop : ∀ op < 16, h op = header (BitVec.ofNat 4 op) c := header_ofNat c
  refine ⟨fun b1 b2 => ?_, fun b => ?_, fun text ht => ?_, fun b1 b2 b3 b4 => ?_, fun b1 b2 b3 b4 => ?_, ?_, ?_,
    fun b1 b2 b3 => ?_, fun op ho => ?_, fun op rsv ho h1 h3 => ?_⟩
  · rw [hop 1 (by decide)]; exact decodeCmd_configure c _
  · rw [hop 2 (by decide)]; exact decodeCmd_writeByte c _
  · have htext : text.all (· != Config.terminator) = true := by simpa [Config.terminator] using ht
    rw [hop 3 (by decide)]
    exact decodeCmd_text c htext rest
  · rw [hop 4 (by decide)]; exact decodeCmd_writeUdec c _
  · rw [hop 5 (by decide)]; exact decodeCmd_writeHex32 c _
  · rw [hop 6 (by decide)]; exact decodeCmd_readByte c rest
  · rw [hop 7 (by decide)]; exact decodeCmd_pendingCount c rest
  · rw [hop 8 (by decide)]; exact decodeCmd_writeByteBounded c _
  · exact decodeCmd_illegalHeader (legalHeader_ofNat c op (by omega) 0 (by decide) (by omega)) rest
  · exact decodeCmd_illegalHeader (legalHeader_ofNat c op (by omega) rsv (by omega) (by omega)) rest

/-- Settles O5: each word splits into its fields, and what decodes on port CMD is a command, which the four internal
operations are not. -/
theorem internalPortWords : Obligations.InternalPortWords := by
  unfold Obligations.InternalPortWords
  refine ⟨fun c b => ?_, fun c b => decodeRbp_noOperation c (extract_high _ _), decodeRbp_enqueue_append,
    fun c b => decodeRbp_dequeue c (extract_high _ _), fun c b => decodeRbp_count c (extract_high _ _), ?_⟩
  · rw [← bitsOfChan_eq_ofNat]
    exact congrArg (Decoded.ok · []) (decodePrx_append c b)
  · intro bytes rest i h c b
    have hi := isCommand_of_decodeCmd h
    refine ⟨?_, ?_, ?_, ?_⟩ <;> rintro rfl <;> cases hi

/-- Settles O1, by running the decoder on the eight words. -/
theorem writtenOutWordsDecode : Obligations.WrittenOutWordsDecode := by
  unfold Obligations.WrittenOutWordsDecode
  decide

end

section
/-! PROOFS. What a foreground step does with an illegal header (30_encoding.md R65), with a truncated command (R64) and
with a word of the opcode table placed for it. -/

namespace Sys2Proof

/-! ### Truncated commands -/

theorem decodeCmd_append {bytes rest : List Byte} {i : Instr} (h : decodeCmd bytes = .ok i rest) (more : List Byte) :
    decodeCmd (bytes ++ more) = .ok i (rest ++ more) := by
  obtain ⟨hi, used, he, rfl⟩ := encode_of_decodeCmd h
  rw [List.append_assoc]
  exact decodeCmd_encode hi he _

/-- What the first `k` bytes decoded to would leave bytes over when the whole command is presented. -/
theorem decodeCmd_take {i : Instr} {bytes : List Byte} {k : Nat} (hi : i.wf = true) (he : encode i = .cmd bytes)
    (hk : k < bytes.length) : decodeCmd (bytes.take k) = .incomplete := by
  have hwhole : decodeCmd (bytes.take k ++ bytes.drop k) = .ok i [] := by
    rw [List.take_append_drop]; exact decodeCmd_encode_nil hi he
  obtain ⟨j, rest, hok⟩ | hinc | ⟨h, rest, heq, hh, -⟩ := decodeCmd_cases (bytes.take k)
  · rw [decodeCmd_append hok] at hwhole
    injection hwhole with _ hnil
    have hlen : bytes.length ≤ k := List.drop_eq_nil_iff.1 (List.append_eq_nil_iff.1 hnil).2
    omega
  · exact hinc
  · rw [heq, List.cons_append, decodeCmd_illegalHeader hh] at hwhole
    cases hwhole

/-! ### Words of the opcode table -/

theorem firstCommand_ok {bytes rest : List Byte} {i : Instr} (h : decodeCmd bytes = .ok i rest) :
    encode i = .cmd (firstCommand bytes) := by
  obtain ⟨-, used, he, rfl⟩ := encode_of_decodeCmd h
  simp only [firstCommand, h, he, List.length_append, Nat.add_sub_cancel, List.take_left]

theorem firstCommand_incomplete {bytes : List Byte} (h : decodeCmd bytes = .incomplete) :
    firstCommand bytes = bytes := by
  simp only [firstCommand, h]

theorem firstCommand_illegal {bytes rest : List Byte} {b : Byte} (h : decodeCmd bytes = .illegal b rest) :
    firstCommand bytes = bytes := by
  simp only [firstCommand, h]

/-- Where the bytes cut off as the first command decode, they are consumed whole, whatever follows them. -/
theorem decodeCmd_firstCommand_append {bytes rest : List Byte} {i : Instr}
    (h : decodeCmd (firstCommand bytes) = .ok i rest) (more : List Byte) :
    decodeCmd (firstCommand bytes ++ more) = .ok i more := by
  obtain ⟨j, r, hok⟩ | hinc | ⟨b, r, -, -, hill⟩ := decodeCmd_cases bytes
  · obtain ⟨hj, -⟩ := encode_of_decodeCmd hok
    have hfirst := decodeCmd_encode hj (firstCommand_ok hok)
    have hnil := hfirst []
    rw [List.append_nil, h] at hnil
    cases hnil
    exact hfirst more
  · rw [firstCommand_incomplete hinc, hinc] at h; cases h
  · rw [firstCommand_illegal hill, hill] at h; cases h

theorem tableWire_eq_cmd {nbits w : Nat} {bytes : List Byte} (h : tableWire nbits w = .cmd bytes) :
    ∃ all, bytes = firstCommand all := by
  simp only [tableWire] at h
  split_ifs at h <;> cases h <;> exact ⟨_, rfl⟩

theorem decode_of_decodeTableWord {nbits w : Nat} {i : Instr} (h : decodeTableWord nbits w = some i) :
    ∃ rest, decode (tableWire nbits w) = .ok i rest := by
  unfold decodeTableWord at h
  split at h
  · next j rest hd => cases h; exact ⟨rest, hd⟩
  all_goals cases h

namespace Machine

variable {s : State} {es : List Event}

/-! ### Steps -/

theorem step_fg_idle (hf : s.fg = .idle) (hs : s.sched = .fg :: es) :
    step s = runDecoded (decodeCmd s.port) { s with sched := es } := by
  rw [step_event hs]
  exact fgStep_idle hf

theorem step_illegalHeader {h : Byte} {rest : List Byte} (hf : s.fg = .idle) (hp : s.port = h :: rest)
    (hs : s.sched = .fg :: es) (hh : legalHeader h = false) :
    step s = .next { s with
      port := rest, sched := es, resp := ⟨.illegalCommand, 0⟩,
      responses := s.responses ++ [⟨.illegalCommand, 0⟩] } := by
  rw [step_fg_idle hf hs, hp, decodeCmd_illegalHeader hh]
  exact congrArg Host.Outcome.next (respond_idle (s := { s with sched := es, port := rest }) hf _ _)

theorem step_incomplete (hf : s.fg = .idle) (hs : s.sched = .fg :: es) (hp : decodeCmd s.port = .incomplete) :
    step s = .next { s with sched := es } := by
  rw [step_fg_idle hf hs, hp]; rfl

theorem runPort_ok {w : Wire} {i : Instr} {rest : List Byte} (h : decode w = .ok i rest) (s : State) :
    runPort w s = exec i s := by
  simp only [runPort, h]

theorem runPort_noOperation {w : Wire} (h : decode w = .noOperation) (s : State) : runPort w s = .next s := by
  simp only [runPort, h]

theorem step_placeWire_cmd {bytes : List Byte} {i : Instr} (hf : s.fg = .idle)
    (hd : decodeCmd (bytes ++ s.port) = .ok i s.port) : step (placeWire (.cmd bytes) s) = exec i s := by
  rw [step_fg_idle (s := placeWire (.cmd bytes) s) rfl rfl]
  simp only [placeWire, hd, runDecoded, ← hf]

end Machine
end Sys2Proof
end

section
open Sys2Proof Sys2Proof.Machine

/-- Settles O6: `legalHeader_eq_false_iff` reads the illegal headers off the fields, a step on one responds, and the
words of RBP with `00` and of IRQ decode as R67 and R66 say. -/
theorem illegalHeadersRaiseIllegalCommand : Obligations.IllegalHeadersRaiseIllegalCommand := by
  unfold Obligations.IllegalHeadersRaiseIllegalCommand
  refine ⟨fun h rest => decodeCmd_eq_illegal_iff.trans (legalHeader_eq_false_iff h),
    fun s h rest es hf hp hs hh => step_illegalHeader hf hp hs ((legalHeader_eq_false_iff h).2 hh),
    fun s c w es hw hs => ?_, fun w => ⟨chanOf w, rfl, rfl⟩⟩
  rw [step_event hs]
  exact runPort_noOperation (w := .rbp c w) (decodeRbp_noOperation c hw) _

/-- Settles O7: the first bytes of a command, but not all, are incomplete (`decodeCmd_take`). -/
theorem truncatedCommandHasNoEffect : Obligations.TruncatedCommandHasNoEffect := by
  unfold Obligations.TruncatedCommandHasNoEffect
  intro s i bytes k es hi he hk hf hp hs
  exact step_incomplete hf hs (by rw [hp]; exact decodeCmd_take hi he hk)

/-- Settles O10: on port CMD the placed bytes are one whole command (`decodeCmd_firstCommand_append`), so the port is
left as it was; a word of another port is run as it is. -/
theorem placedTableWordRunsNext : Obligations.PlacedTableWordRunsNext := by
  unfold Obligations.PlacedTableWordRunsNext
  intro s nbits w i hf h
  obtain ⟨rest, hd⟩ := decode_of_decodeTableWord h
  rw [State.withFetchWord]
  cases hw : tableWire nbits w with
  | cmd bytes =>
    rw [hw] at hd
    obtain ⟨all, rfl⟩ := tableWire_eq_cmd hw
    exact step_placeWire_cmd hf (decodeCmd_firstCommand_append hd s.port)
  | irq v | prx v | rbp c v =>
    rw [hw] at hd
    exact runPort_ok hd s

end

section
/-! PROOFS. Responses (30_encoding.md R71): what an operation and a step may answer. -/

namespace Sys2Proof
namespace Machine

variable {s t : State}

/-- From `s` to `t` there is no response, or exactly one, which ends the command and whose data, where it is not 0,
`carries` accounts for. -/
def RespondsAtMostOnce (carries : Response → Prop) (s t : State) : Prop :=
  (t.responses = s.responses ∧ t.resp = s.resp) ∨
  (t.responses = s.responses ++ [t.resp] ∧ t.fg = .idle ∧ (t.resp.data ≠ 0 → carries t.resp))

/-- The responses of operation `i` that may carry data: the byte or the `draw` of READ_BYTE, the count of
PENDING_COUNT. -/
def CarriesData (i : Instr) (r : Response) : Prop :=
  (i = .readByte (chanOfInstr i) ∧ (r.status = .emptyQueue ∨ (r.status = .ok ∧ r.data.toNat < 2 ^ 8))) ∨
  (i = .pendingCount (chanOfInstr i) ∧ r.status = .ok)

theorem RespondsAtMostOnce.mono {p q : Response → Prop} (h : RespondsAtMostOnce p s t) (hpq : ∀ r, p r → q r) :
    RespondsAtMostOnce q s t :=
  h.imp_right fun ⟨hr, hf, hd⟩ => ⟨hr, hf, fun h0 => hpq _ (hd h0)⟩

/-- The responses do not depend on what is scheduled and presented. -/
theorem RespondsAtMostOnce.of_taken {p : Response → Prop} {es : List Event} {bytes : List Byte}
    (h : RespondsAtMostOnce p { s with sched := es, port := bytes } t) : RespondsAtMostOnce p s t := h

/-- `respond` on a state that has the responses of `s`. -/
theorem respondsAtMostOnce_respond {p : Response → Prop} {u : State} (hu : u.responses = s.responses) (st : Status)
    (d : Half) (hd : d ≠ 0 → p ⟨st, d⟩) : RespondsAtMostOnce p s (respond st d u) :=
  .inr ⟨by rw [respond_responses, respond_resp, hu], rfl, hd⟩

theorem respondsAtMostOnce_startSending {p : Response → Prop} {u : State} (hr : u.responses = s.responses)
    (hp : u.resp = s.resp) (c : Chan) (L : List Byte) : RespondsAtMostOnce p s (startSending c L u) := by
  obtain ⟨-, he⟩ | ⟨b, rest, -, he⟩ := startSending_cases (c := c) L u
  · rw [he]; exact respondsAtMostOnce_respond hr _ _ (absurd rfl)
  · rw [he]; exact .inl ⟨hr, hp⟩

theorem toNat_setWidth_lt (b : Byte) : (b.setWidth 16).toNat < 2 ^ 8 := by
  rw [BitVec.toNat_setWidth]
  exact (Nat.mod_le _ _).trans_lt b.isLt

theorem exec_respondsAtMostOnce {i : Instr} (h : exec i s = .next t) : RespondsAtMostOnce (CarriesData i) s t := by
  cases exec_next h with
  | unchanged | starts | enqueues | answers | dequeues | dispatches => exact .inl ⟨rfl, rfl⟩
  | completes d _ _ _ hd => exact respondsAtMostOnce_respond rfl _ _ fun h0 => .inr ⟨hd h0, rfl⟩
  | notConfigured | alreadyConfigured => exact respondsAtMostOnce_respond rfl _ _ (absurd rfl)
  | emptyQueue d hi => exact respondsAtMostOnce_respond rfl _ _ fun _ => .inl ⟨hi, .inl rfl⟩
  | reads v rb hi =>
    exact respondsAtMostOnce_respond rfl _ _ fun _ => .inl ⟨hi, .inr ⟨rfl, toNat_setWidth_lt v⟩⟩
  | configures d =>
    obtain ⟨-, -, -, hresp, -⟩ := configureSteps_fg (c := chanOfInstr i) d s
    exact respondsAtMostOnce_respond hresp _ _ (absurd rfl)

/-- The responses a step from `s` may carry data in: those of the command presented to the idle foreground. -/
def StepCarriesData (s : State) (r : Response) : Prop :=
  s.fg = .idle ∧ ∃ c rest,
    (decodeCmd s.port = .ok (.readByte c) rest ∧
      (r.status = .emptyQueue ∨ (r.status = .ok ∧ r.data.toNat < 2 ^ 8))) ∨
    (decodeCmd s.port = .ok (.pendingCount c) rest ∧ r.status = .ok)

theorem stepCarriesData_of_command {i : Instr} {rest : List Byte} {r : Response} (hf : s.fg = .idle)
    (hd : decodeCmd s.port = .ok i rest) (h : CarriesData i r) : StepCarriesData s r := by
  refine ⟨hf, chanOfInstr i, rest, ?_⟩
  obtain ⟨hi, hr⟩ | ⟨hi, hr⟩ := h
  · exact .inl ⟨by rw [← hi, hd], hr⟩
  · exact .inr ⟨by rw [← hi, hd], hr⟩

/-- Only a command carries data: the operations of the other ports respond nothing. -/
theorem isCommand_of_carriesData {i : Instr} {r : Response} (h : CarriesData i r) : isCommand i = true := by
  obtain ⟨hi, -⟩ | ⟨hi, -⟩ := h <;> rw [hi] <;> rfl

theorem step_respondsAtMostOnce (h : step s = .next t) : RespondsAtMostOnce (StepCarriesData s) s t := by
  cases step_next h with
  | stutter | nothing | polls | arrives | readies | presents => exact .inl ⟨rfl, rfl⟩
  | commands es i p t _ hf hd he =>
    exact (exec_respondsAtMostOnce he).of_taken.mono fun r hr => stepCarriesData_of_command hf hd hr
  | operates e es i t _ hi he =>
    refine RespondsAtMostOnce.of_taken (es := es) (bytes := s.port) ((exec_respondsAtMostOnce he).mono fun r hr => ?_)
    rw [isCommand_of_carriesData hr] at hi; cases hi
  | illegal | timesOut | pollSends => exact respondsAtMostOnce_respond (by rfl) _ _ (absurd rfl)
  | transmits es c b rest => exact respondsAtMostOnce_startSending (by rfl) (by rfl) c rest

end Machine
end Sys2Proof
end

section
open Sys2Proof Sys2Proof.Machine

/-- Settles O48: of the steps only an operation, an illegal header and a transmit or poll step respond, once, and of
these only READ_BYTE and PENDING_COUNT with data (`exec_respondsAtMostOnce`). -/
theorem atMostOneResponsePerStep : Obligations.AtMostOneResponsePerStep := by
  unfold Obligations.AtMostOneResponsePerStep
  exact fun s t h => step_respondsAtMostOnce h

end

section
/-! PROOFS. What RB.ENQUEUE and RB.DEQUEUE answer (40_ringbuffer.md R80, R81), and the frame of the stores (10_state.md
R17). -/

namespace Sys2Proof
namespace Machine

variable {s t : State} {c d : Chan} {n : Nat} {b v : Byte} {rb rb' : Rb}

/-! ### What RB.ENQUEUE and RB.DEQUEUE answer -/

theorem exec_rbEnqueue (he : enqueue s.cfg.n b (s.chan c).rb = some rb) :
    exec (.rbEnqueue c b) s = .next (setRb c rb s) := by
  simp only [exec, execRbEnqueue, enqueueOn, he]

theorem exec_rbDequeue (h0 : (s.chan c).rb.count ≠ 0) (hd : dequeue c s.cfg.n (s.chan c).rb = some (v, rb)) :
    exec (.rbDequeue c) s = .next (setRbOut c (.ok v) (setRb c rb s)) := by
  simp only [exec, execRbDequeue, dequeueOn, if_neg h0, hd]

theorem exec_rbDequeue_empty (h0 : (s.chan c).rb.count = 0) :
    exec (.rbDequeue c) s =
      .next (setRbOut c (.empty (Config.freeByte s.draws)) { s with draws := s.draws + 1 }) := by
  rw [exec, execRbDequeue, dequeueOn_empty _ _ h0]

/-! ### What the operations do to the stores -/

theorem enqueue_store (he : enqueue n b rb = some rb') : rb'.store = setCell rb.store (nxt n rb.tail) b := by
  have hn : 0 < n := by
    by_contra h0
    simp [enqueue, memWrite, show n = 0 by omega] at he
  rw [enqueue_eq hn, Option.some.injEq] at he
  rw [← he]
  split <;> rfl

theorem dequeue_store (hd : dequeue c n rb = some (v, rb')) : rb'.store = rb.store := by rw [dequeue_frame hd]

theorem memRead_setCell_ne (c : Chan) (n : Nat) (m : Memory) {a i : Nat} (v : Byte) (h : i ≠ a) :
    memRead c n (setCell m a v) i = memRead c n m i := by
  rw [memRead, memRead, getCell_setCell_ne m v h]

/-- Every store is as before. -/
def StoresSame (s t : State) : Prop := ∀ d, (t.chan d).rb.store = (s.chan d).rb.store

/-- Channel `c` has stored a byte after `tail`, and every other channel is as before. -/
def StoredAfterTail (c : Chan) (s t : State) : Prop :=
  (∃ b, (t.chan c).rb.store = setCell (s.chan c).rb.store (nxt s.cfg.n (s.chan c).rb.tail) b) ∧ othersSame c s t

theorem storesSame_of_chan (hsame : (t.chan c).rb.store = (s.chan c).rb.store) (hothers : othersSame c s t) :
    StoresSame s t := by
  intro d
  by_cases hd : d = c
  · rw [hd, hsame]
  · rw [hothers d hd]

theorem storesSame_setRb (h : rb.store = (s.chan c).rb.store) : StoresSame s (setRb c rb s) :=
  storesSame_of_chan (by rw [setRb_chan_same]; exact h) fun _ hd => setRb_chan_ne rb hd

theorem storesSame_setRbOut (c : Chan) (r : RbResult) (s : State) : StoresSame s (setRbOut c r s) :=
  storesSame_of_chan (by rw [setRbOut_chan_same]) fun _ hd => setRbOut_chan_ne r hd

theorem storesSame_configureSteps (c : Chan) (div : Half) (s : State) : StoresSame s (configureSteps c div s) :=
  storesSame_of_chan (by rw [configureSteps_chan_same]) fun _ hd => configureSteps_chan_ne div hd

/-- Either an operation leaves every store alone, or it stores to the element `storeTarget` names. -/
theorem exec_stores {i : Instr} (h : exec i s = .next t) :
    StoresSame s t ∨
    ∃ c, storeTarget i s = some (c, nxt s.cfg.n (s.chan c).rb.tail) ∧ StoredAfterTail c s t := by
  cases exec_next h with
  | unchanged | completes | notConfigured | alreadyConfigured | emptyQueue | starts => exact .inl fun _ => rfl
  | reads v rb _ _ _ hd => exact .inl (storesSame_setRb (dequeue_store hd))
  | configures div => exact .inl fun d => by rw [respond_chan]; exact storesSame_configureSteps _ div s d
  | answers r k => exact .inl (storesSame_setRbOut _ r { s with draws := k })
  | dequeues v rb _ _ hd =>
    exact .inl fun d => (storesSame_setRbOut _ _ _ d).trans (storesSame_setRb (dequeue_store hd) d)
  | enqueues b rb hi he =>
    refine .inr ⟨chanOfInstr i, ?_, ⟨b, by rw [setRb_chan_same]; exact enqueue_store he⟩,
      fun d hd => setRb_chan_ne rb hd⟩
    obtain hi | ⟨hi, hr⟩ := hi
    · rw [hi]; rfl
    · rw [hi]; exact if_pos hr
  | dispatches rb hi hp hpush =>
    obtain ⟨hr, he⟩ | ⟨-, rfl⟩ := hpush
    · refine .inr ⟨chanOfInstr i, ?_, ⟨(s.chan (chanOfInstr i)).per.rhr, ?_⟩, fun d hd => PerChan.get_set_ne _ _ hd⟩
      · rw [hi]; exact if_pos ⟨hp, hr⟩
      · rw [State.chan, PerChan.get_set_same]; exact enqueue_store he
    · exact .inl (storesSame_of_chan (by rw [State.chan, PerChan.get_set_same]) fun d hd => PerChan.get_set_ne _ _ hd)

theorem StoredAfterTail.memRead_eq (h : StoredAfterTail c s t) {i : Nat}
    (hne : ¬ (d = c ∧ i = nxt s.cfg.n (s.chan c).rb.tail)) :
    memRead d s.cfg.n (t.chan d).rb.store i = memRead d s.cfg.n (s.chan d).rb.store i := by
  obtain ⟨⟨b, hstore⟩, hothers⟩ := h
  by_cases hd : d = c
  · subst hd
    rw [hstore, memRead_setCell_ne _ _ _ _ fun hi => hne ⟨rfl, hi⟩]
  · rw [hothers d hd]

end Machine
end Sys2Proof
end

section
/-! PROOFS. The buffer of a channel as a bounded queue: the three laws (40_ringbuffer.md R84, R85, R86). -/

namespace Sys2Proof
namespace Machine

variable {s t : State} {c : Chan} {n : Nat} {b v : Byte} {L : List Byte} {i : Instr} {ops : List Instr}

/-! ### The last `k` of a list -/

theorem rtake_rtake_append {α : Type} (l m : List α) (k : Nat) : (l.rtake k ++ m).rtake k = (l ++ m).rtake k := by
  simp [List.rtake_eq_reverse_take_reverse, List.take_append, List.take_take]

theorem rtake_of_length_le {α : Type} {l : List α} {k : Nat} (h : l.length ≤ k) : l.rtake k = l := by
  rw [List.rtake, Nat.sub_eq_zero_of_le h, List.drop_zero]

/-- A queue of at most `k` elements that drops its oldest where it holds `k` keeps the last `k` it was given. -/
theorem rtake_concat {α : Type} {l : List α} {k : Nat} (x : α) (hk : 1 ≤ k) (hl : l.length ≤ k) :
    (l ++ [x]).rtake k = (if l.length = k then l.tail else l) ++ [x] := by
  obtain ⟨k, rfl⟩ : ∃ m, k = m + 1 := ⟨k - 1, by omega⟩
  rw [List.rtake_concat_succ]
  split
  · next h => rw [List.rtake, h, Nat.add_sub_cancel_left, List.drop_one]
  · next h => rw [rtake_of_length_le (by omega)]

/-! ### The bytes a buffer holds -/

/-- The buffer of channel `c` has `n` elements and satisfies R15, and its valid bytes, oldest first, are `L`. -/
structure HoldsBytes (c : Chan) (n : Nat) (L : List Byte) (s : State) : Prop where
  two_le : 2 ≤ n
  size : s.cfg.n = n
  wf : (s.chan c).rb.Wf n
  bytes : contents n (s.chan c).rb = L

theorem holdsBytes_contents (hn : 2 ≤ s.cfg.n) (hwf : (s.chan c).rb.Wf s.cfg.n) :
    HoldsBytes c s.cfg.n (contents s.cfg.n (s.chan c).rb) s := ⟨hn, rfl, hwf, rfl⟩

theorem HoldsBytes.count_eq (h : HoldsBytes c n L s) : (s.chan c).rb.count = L.length := by
  rw [← h.bytes, length_contents h.wf]

theorem HoldsBytes.length_le (h : HoldsBytes c n L s) : L.length ≤ n - 1 := by
  obtain ⟨-, -, -, -, hcount, -, -⟩ := h.wf
  rw [h.count_eq] at hcount
  omega

theorem holdsBytes_nil (hn : 2 ≤ s.cfg.n) (hwf : (s.chan c).rb.Wf s.cfg.n) (h0 : (s.chan c).rb.count = 0) :
    HoldsBytes c s.cfg.n [] s :=
  ⟨hn, rfl, hwf, List.eq_nil_of_length_eq_zero ((length_contents hwf).trans h0)⟩

theorem holdsBytes_setRbOut (h : HoldsBytes c n L s) (r : RbResult) : HoldsBytes c n L (setRbOut c r s) :=
  ⟨h.two_le, h.size, by rw [setRbOut_chan_same]; exact h.wf, by rw [setRbOut_chan_same]; exact h.bytes⟩

theorem holdsBytes_setRb (h : HoldsBytes c n L s) {rb : Rb} (hwf : rb.Wf n) :
    HoldsBytes c n (contents n rb) (setRb c rb s) :=
  ⟨h.two_le, h.size, by rw [setRb_chan_same]; exact hwf, by rw [setRb_chan_same]⟩

/-! ### One operation -/

theorem HoldsBytes.rbEnqueue (h : HoldsBytes c n L s) (b : Byte) :
    ∃ t, exec (.rbEnqueue c b) s = .next t ∧ HoldsBytes c n ((L ++ [b]).rtake (n - 1)) t := by
  obtain rfl := h.size
  have hn := h.two_le
  obtain ⟨rb, he, -⟩ := enqueueOn_eq (s := s) (c := c) (b := b) (by omega)
  refine ⟨_, exec_rbEnqueue he, ?_⟩
  have hbytes := contents_enqueue hn h.wf he
  rw [h.bytes, h.count_eq, ← rtake_concat b (by omega) h.length_le] at hbytes
  exact hbytes ▸ holdsBytes_setRb h (enqueue_wf hn h.wf he)

theorem HoldsBytes.rbDequeue (h : HoldsBytes c n (v :: L) s) :
    ∃ t, exec (.rbDequeue c) s = .next t ∧ HoldsBytes c n L t ∧ (t.chan c).rbOut = .ok v := by
  obtain rfl := h.size
  have h0 : (s.chan c).rb.count ≠ 0 := by simp [h.count_eq]
  obtain ⟨w, -, hd⟩ := dequeue_eq h.wf c h0
  have hbytes := contents_dequeue h.wf h0 hd
  obtain ⟨rfl, rfl⟩ := List.cons.inj (h.bytes.symm.trans hbytes)
  refine ⟨_, exec_rbDequeue h0 hd, holdsBytes_setRbOut (holdsBytes_setRb h (dequeue_wf h.wf h0 hd)) _, ?_⟩
  rw [setRbOut_chan_same]

theorem HoldsBytes.rbDequeue_nil (h : HoldsBytes c n [] s) :
    ∃ t, exec (.rbDequeue c) s = .next t ∧ HoldsBytes c n [] t :=
  ⟨_, exec_rbDequeue_empty h.count_eq,
    holdsBytes_setRbOut (s := { s with draws := s.draws + 1 }) ⟨h.two_le, h.size, h.wf, h.bytes⟩ _⟩

/-! ### Runs of operations -/

theorem runOps_cons (h : exec i s = .next t) (ops : List Instr) : runOps (i :: ops) s = runOps ops t := by
  rw [runOps, h]

theorem HoldsBytes.runOps_enqueues (h : HoldsBytes c n L s) (bs : List Byte) :
    ∃ t, runOps (bs.map (.rbEnqueue c)) s = .next t ∧ HoldsBytes c n ((L ++ bs).rtake (n - 1)) t := by
  induction bs generalizing s L with
  | nil => exact ⟨s, rfl, by rwa [List.append_nil, rtake_of_length_le h.length_le]⟩
  | cons b bs ih =>
    obtain ⟨t, he, ht⟩ := h.rbEnqueue b
    obtain ⟨u, hu, hL⟩ := ih ht
    refine ⟨u, by rw [List.map_cons, runOps_cons he, hu], ?_⟩
    rwa [rtake_rtake_append, List.append_assoc, List.singleton_append] at hL

theorem HoldsBytes.runOps_dequeues (h : HoldsBytes c n L s) {j : Nat} (hj : L[j]? = some b) :
    ∃ t, runOps (List.replicate (j + 1) (.rbDequeue c)) s = .next t ∧ HoldsBytes c n (L.drop (j + 1)) t ∧
      (t.chan c).rbOut = .ok b := by
  induction L generalizing s j with
  | nil => cases hj
  | cons v M ih =>
    obtain ⟨t, he, ht, hout⟩ := h.rbDequeue
    cases j with
    | zero =>
      obtain rfl : v = b := by simpa using hj
      exact ⟨t, runOps_cons he [], ht, hout⟩
    | succ j =>
      obtain ⟨u, hu, hheld, hlast⟩ := ih ht hj
      exact ⟨u, (runOps_cons he _).trans hu, hheld, hlast⟩

/-! ### Any interleaving -/

/-- No operation of the run finds the buffer of channel `c` full (an enqueue) or empty (a dequeue). -/
def RunFits (c : Chan) (ops : List Instr) (s : State) : Prop :=
  ∀ pre i post u, ops = pre ++ i :: post → runOps pre s = .next u → fitsBuffer c i u = true

theorem RunFits.head (h : RunFits c (i :: ops) s) : fitsBuffer c i s = true := h [] i ops s rfl rfl

theorem RunFits.tail (h : RunFits c (i :: ops) s) (he : exec i s = .next t) : RunFits c ops t :=
  fun pre j post u hops hu => h (i :: pre) j post u (by rw [hops, List.cons_append]) (by rw [runOps_cons he, hu])

/-- One enqueue or dequeue, and what it adds to the bytes held or takes off them where it fits. -/
theorem HoldsBytes.ringOp (h : HoldsBytes c n L s) (hi : isRingOp c i = true) :
    ∃ t M, exec i s = .next t ∧ HoldsBytes c n M t ∧ (fitsBuffer c i s = true →
      M.length + (if !isEnqueue i then 1 else 0) = L.length + (if isEnqueue i then 1 else 0)) := by
  have hcount := h.count_eq
  cases i with
  | rbEnqueue d b =>
    obtain rfl : d = c := by simpa [isRingOp] using hi
    obtain ⟨t, he, ht⟩ := h.rbEnqueue b
    refine ⟨t, _, he, ht, fun hfits => ?_⟩
    have hroom : L.length ≠ n - 1 := by simpa [fitsBuffer, isEnqueue, isFull, hcount, h.size] using hfits
    have hle := h.length_le
    rw [rtake_of_length_le (by rw [List.length_append, List.length_singleton]; omega)]
    simp [isEnqueue]
  | rbDequeue d =>
    obtain rfl : d = c := by simpa [isRingOp] using hi
    cases L with
    | nil =>
      obtain ⟨t, he, ht⟩ := h.rbDequeue_nil
      exact ⟨t, [], he, ht, fun hfits => absurd hfits (by simp [fitsBuffer, isEnqueue, isEmpty, hcount])⟩
    | cons v M =>
      obtain ⟨t, he, ht, -⟩ := h.rbDequeue
      exact ⟨t, M, he, ht, fun _ => rfl⟩
  | configure | writeByte | writeText | writeUdec | writeHex32 | readByte | pendingCount | writeByteBounded | rbCount
  | pushReceived | rxDispatch => cases hi

theorem HoldsBytes.runOps_ringOps (h : HoldsBytes c n L s) (hops : ops.all (isRingOp c) = true) :
    ∃ t M, runOps ops s = .next t ∧ HoldsBytes c n M t ∧ (RunFits c ops s →
      M.length + ops.countP (fun i => !isEnqueue i) = L.length + ops.countP isEnqueue) := by
  induction ops generalizing s L with
  | nil => exact ⟨s, L, rfl, h, fun _ => rfl⟩
  | cons i ops ih =>
    rw [List.all_cons, Bool.and_eq_true] at hops
    obtain ⟨hi, hops⟩ := hops
    obtain ⟨t, M, he, ht, hone⟩ := h.ringOp hi
    obtain ⟨u, N, hu, hN, hrest⟩ := ih ht hops
    refine ⟨u, N, (runOps_cons he ops).trans hu, hN, fun hfits => ?_⟩
    have hone := hone hfits.head
    have hrest := hrest (hfits.tail he)
    rw [List.countP_cons, List.countP_cons]
    omega

end Machine
end Sys2Proof
end

section
open Sys2Proof Sys2Proof.Machine

/-- Settles O13: where `N` is not 0 the enqueue answers (`enqueue_eq`), keeps R15 (`enqueue_wf`), and writes the element
after the valid bytes (`nxt_tail`), which in a full buffer is the unused one. -/
theorem enqueueStoresAfterTail : Obligations.EnqueueStoresAfterTail := by
  unfold Obligations.EnqueueStoresAfterTail
  intro s c b hn n x t rb'
  have he : enqueue n b x.rb = some rb' := enqueue_eq (by omega) b x.rb
  refine ⟨(exec_rbEnqueue he).trans (congrArg _ (setRb_eq c rb' s)), fun w hw hb => ?_,
    fun hwf => enqueue_wf hn hwf he, fun hwf hfull => ?_⟩
  · rw [decodeRbp_enqueue c hw, hb]
  · rw [← hfull]; exact nxt_tail hwf

/-- Settles O14: with bytes held, R15 says the element at `head` has been written (`dequeue_eq`); with none, only the
result and the draw are new. -/
theorem dequeueReturnsTheOldestByte : Obligations.DequeueReturnsTheOldestByte := by
  unfold Obligations.DequeueReturnsTheOldestByte
  intro s c hwf n x
  refine ⟨fun h0 => ?_, fun h0 => ⟨_, (exec_rbDequeue_empty h0).trans (congrArg _ (setRbOut_eq _ _ _))⟩,
    fun w hw => decodeRbp_dequeue c hw⟩
  obtain ⟨v, hv, hd⟩ := dequeue_eq hwf c h0
  refine ⟨v, hv, ?_, dequeue_wf hwf h0 hd⟩
  rw [exec_rbDequeue h0 hd, setRbOut_eq, setRb_eq, PerChan.get_set_same, PerChan.set_set]
  rfl

/-- Settles O17: the enqueues all fit, so the buffer holds the very bytes, and the dequeues take them off in order. -/
theorem fifoLaw : Obligations.FifoLaw := by
  unfold Obligations.FifoLaw
  intro s c bs hn hwf h0 hbs
  obtain ⟨t, hrun, ht⟩ := (holdsBytes_nil hn hwf h0).runOps_enqueues bs
  rw [List.nil_append, rtake_of_length_le hbs] at ht
  refine ⟨t, hrun, ht.count_eq, fun j b hj => ?_⟩
  obtain ⟨u, hu, hheld, hout⟩ := ht.runOps_dequeues hj
  exact ⟨u, hu, hout, by rw [hheld.count_eq, List.length_drop]⟩

/-- Settles O18: on the bytes held an enqueue appends and keeps the last `N - 1` (`HoldsBytes.rbEnqueue`), which in
a full buffer drops the oldest (`rtake_concat`). -/
theorem overwriteLaw : Obligations.OverwriteLaw := by
  unfold Obligations.OverwriteLaw
  refine ⟨fun s c b hn hwf hfull => ?_, fun s c bs hn hwf h0 => ?_⟩
  · have hs := holdsBytes_contents hn hwf
    obtain ⟨t, he, ht⟩ := hs.rbEnqueue b
    have hlen := hs.count_eq.symm.trans hfull
    rw [rtake_concat b (by omega) hlen.le, if_pos hlen, ← List.drop_one] at ht
    refine ⟨t, he, ht.bytes, ht.count_eq.trans ?_⟩
    rw [List.length_append, List.length_drop, List.length_singleton]
    omega
  · obtain ⟨t, hrun, ht⟩ := (holdsBytes_nil hn hwf h0).runOps_enqueues bs
    exact ⟨t, hrun, ht.bytes⟩

/-- Settles O19: every run of enqueues and dequeues goes on, and each operation that fits changes the number of bytes
held by one (`HoldsBytes.runOps_ringOps`). -/
theorem countLaw : Obligations.CountLaw := by
  unfold Obligations.CountLaw
  intro s c ops hn hwf hops
  have hs := holdsBytes_contents hn hwf
  obtain ⟨t, M, hrun, ht, hcount⟩ := hs.runOps_ringOps hops
  refine ⟨t, hrun, ht.count_eq.trans_le ht.length_le, fun h0 hfits => ?_⟩
  have hbalance := hcount hfits
  rw [← hs.count_eq, h0, ← ht.count_eq, Nat.zero_add] at hbalance
  refine ⟨_, exec_rbCount c t, ?_, by omega⟩
  rw [State.chan, PerChan.get_set_same, ← hbalance, Nat.add_sub_cancel]
  rfl

/-- Settles O45: `exec_stores` says which operations store, each at the element `storeTarget` names. -/
theorem storeFrame : Obligations.StoreFrame := by
  unfold Obligations.StoreFrame
  intro s t i h
  obtain hsame | ⟨c, htarget, hstored⟩ := exec_stores h
  · exact ⟨fun _ d a => by rw [hsame d], fun _ _ _ d a _ => by rw [hsame d]⟩
  · rw [htarget]
    refine ⟨fun hnone => (nomatch hnone), fun _ _ hsome d a hne => hstored.memRead_eq ?_⟩
    cases hsome
    exact hne

/-- Settles O15: RB.COUNT writes the result field alone (`exec_rbCount`), and R15 keeps `count` below `N`. -/
theorem countReturnsCount : Obligations.CountReturnsCount := by
  unfold Obligations.CountReturnsCount
  refine fun s c => ⟨exec_rbCount c s, fun hwf => ?_, fun k u => ?_, fun w hw => decodeRbp_count c hw⟩
  · obtain ⟨-, -, -, -, hcount, -, -⟩ := hwf
    exact Nat.le_sub_one_of_lt hcount
  · rw [chan_resetWith]; rfl

end

section
/-! PROOFS. What the commands of the port driver answer to the idle foreground (41_port_driver.md R101 to R106), and the
foreground's transmit and poll steps (R109, R110). -/

namespace Sys2Proof
namespace Machine

variable {s : State} {c : Chan} {b : Byte} {es : List Event}

/-! ### CONFIGURE -/

theorem exec_configure (div : Half) (hf : s.fg = .idle) (hu : (s.chan c).st = .uninitialized) :
    exec (.configure c div) s = .next (respond .ok 0 (configureSteps c div s)) := by
  rw [exec, execConfigure, accept_idle _ hf, hu]

theorem exec_configure_refused (div : Half) (hf : s.fg = .idle) (hu : (s.chan c).st ≠ .uninitialized) :
    exec (.configure c div) s = .next (respond .alreadyConfigured 0 s) := by
  rw [exec, execConfigure, accept_idle _ hf]
  split
  · next h => exact absurd h hu
  · rfl
  · rfl

/-! ### The commands on a Running channel -/

theorem exec_writeByte (b : Byte) (hf : s.fg = .idle) (hr : (s.chan c).st = .running) :
    exec (.writeByte c b) s = .next (startSending c [b] s) := by
  rw [exec, execWriteByte, whenRunning_running _ hf hr]

theorem exec_writeByteBounded (b : Byte) (limit : Half) (hf : s.fg = .idle) (hr : (s.chan c).st = .running) :
    exec (.writeByteBounded c b limit) s = .next { s with fg := .polling c b limit } := by
  rw [exec, execWriteByteBounded, whenRunning_running _ hf hr]

theorem exec_pendingCount (hf : s.fg = .idle) (hr : (s.chan c).st = .running) :
    exec (.pendingCount c) s = .next (respond .ok (((s.chan c).rb.countBits s.cfg.n).setWidth 16) s) := by
  rw [exec, execPendingCount, whenRunning_running _ hf hr, countOf, Rb.countBits]

theorem exec_readByte_eq_dequeueOn (hf : s.fg = .idle) (hr : (s.chan c).st = .running) :
    exec (.readByte c) s = dequeueOn c s raiseEmptyQueue fun v s => respond .ok (v.setWidth 16) s := by
  rw [exec, execReadByte, whenRunning_running _ hf hr]

/-- IDXW is at most 16, so the 16 bits of a response hold a count below `N`. -/
theorem toNat_setWidth_countBits {n : Nat} {rb : Rb} (hn : n ≤ 65536) (h : rb.count < n) :
    ((rb.countBits n).setWidth 16).toNat = rb.count := by
  rw [BitVec.toNat_setWidth, toNat_countBits hn h, Nat.mod_eq_of_lt (by omega)]

/-! ### PUSH_RECEIVED -/

/-- `enqueue_eq` field by field: a full buffer moves `head` in place of `count`. -/
theorem enqueue_eq_fields {n : Nat} (hn : 0 < n) (b : Byte) (rb : Rb) :
    enqueue n b rb = some {
      store := setCell rb.store (nxt n rb.tail) b, tail := nxt n rb.tail,
      head := if rb.count = n - 1 then nxt n rb.head else rb.head,
      count := if rb.count = n - 1 then rb.count else rb.count + 1 } := by
  rw [enqueue_eq hn]
  split <;> rfl

theorem exec_pushReceived_running (b : Byte) (hr : (s.chan c).st = .running) :
    exec (.pushReceived c b) s = exec (.rbEnqueue c b) s := pushOn_running hr

/-- Of the channels only a Running one has its receive interrupt enabled (60_exceptions.md R167). -/
theorem StateInv.running_of_rxPending (h : StateInv s) (hp : rxPending c s = true) : (s.chan c).st = .running := by
  obtain ⟨-, hch, -⟩ := h
  obtain ⟨-, -, hier, -⟩ := hch c
  simp only [rxPending, Bool.and_eq_true] at hp
  obtain ⟨⟨henabled, -⟩, -⟩ := hp
  exact hier.1 henabled

/-! ### The transmit step -/

theorem step_fg_sending {rest : List Byte} (hs : s.sched = .fg :: es) (hf : s.fg = .sending c b rest) :
    step s = .next (transmitStep c b rest { s with sched := es }) := by
  rw [step_event hs]
  exact fgStep_sending hf

theorem transmitStep_ready (b : Byte) (rest : List Byte) (h : (s.chan c).per.txrdy = true) :
    transmitStep c b rest s = startSending c rest (tx c b (readSr c s)) := if_pos h

theorem transmitStep_holds (b : Byte) (rest : List Byte) (h : (s.chan c).per.txrdy = false) :
    transmitStep c b rest s = s := if_neg (by rw [txReadyFlag, h]; decide)

theorem step_sending_ready {rest : List Byte} (hs : s.sched = .fg :: es) (hf : s.fg = .sending c b rest)
    (h : (s.chan c).per.txrdy = true) :
    step s = .next (startSending c rest (tx c b (readSr c { s with sched := es }))) := by
  rw [step_fg_sending hs hf]
  exact congrArg _ (transmitStep_ready b rest h)

theorem step_sending_holds {rest : List Byte} (hs : s.sched = .fg :: es) (hf : s.fg = .sending c b rest)
    (h : (s.chan c).per.txrdy = false) : step s = .next { s with sched := es } := by
  rw [step_fg_sending hs hf]
  exact congrArg _ (transmitStep_holds b rest h)

/-! ### The poll step -/

theorem step_fg_polling {left : Half} (hs : s.sched = .fg :: es) (hf : s.fg = .polling c b left) :
    step s = .next (pollStep c b left { s with sched := es }) := by
  rw [step_event hs]
  exact fgStep_polling hf

theorem step_polling_timesOut (hs : s.sched = .fg :: es) (hf : s.fg = .polling c b 0) :
    step s = .next (respond .txTimeout 0 { s with sched := es }) := step_fg_polling hs hf

theorem step_polling_ready {left : Half} (hs : s.sched = .fg :: es) (hf : s.fg = .polling c b left) (h0 : left ≠ 0)
    (h : (s.chan c).per.txrdy = true) :
    step s = .next (respond .ok 0 (tx c b (readSr c { s with sched := es }))) := by
  rw [step_fg_polling hs hf, pollStep, if_neg h0]
  exact congrArg _ (if_pos h)

theorem step_polling_continues {left : Half} (hs : s.sched = .fg :: es) (hf : s.fg = .polling c b left) (h0 : left ≠ 0)
    (h : (s.chan c).per.txrdy = false) :
    step s = .next { s with
      sched := es, fg := .polling c b (left - 1), extlog := s.extlog ++ [.readSr c (s.chan c).per.rxrdy false] } := by
  rw [step_fg_polling hs hf, pollStep, if_neg h0, if_neg (by rw [txReadyFlag, chan_sched_update, h]; decide), ← h]
  rfl

/-- A status read for each poll left, and the time-out after the last. -/
theorem run_polling_timesOut {n : Nat} {left : Half} (hn : left.toNat = n) (hf : s.fg = .polling c b left)
    (h : (s.chan c).per.txrdy = false) (hs : s.sched = List.replicate (n + 1) .fg ++ es) :
    Host.Core.run Sys2Proof.core (n + 1) s = .next (respond .txTimeout 0 { s with
      sched := es, extlog := s.extlog ++ List.replicate n (.readSr c (s.chan c).per.rxrdy false) }) := by
  induction n generalizing s left with
  | zero =>
    obtain rfl : left = 0 := BitVec.eq_of_toNat_eq hn
    refine (run_succ (step_polling_timesOut hs hf) 0).trans ?_
    rw [List.replicate_zero (a := Access.readSr c (s.chan c).per.rxrdy false), List.append_nil s.extlog]; rfl
  | succ n ih =>
    have h0 : left ≠ 0 := by rintro rfl; simp at hn
    have hleft : (left - 1).toNat = n := by bv_omega
    refine (run_succ (step_polling_continues hs hf h0 h) (n + 1)).trans ?_
    refine (ih hleft rfl (by exact h) rfl).trans ?_
    have hlog (a : Access) : s.extlog ++ [a] ++ List.replicate n a = s.extlog ++ List.replicate (n + 1) a := by
      rw [List.append_assoc, List.singleton_append, ← List.replicate_succ]
    exact congrArg (fun log => Host.Outcome.next (respond .txTimeout 0 { s with sched := es, extlog := log })) (hlog _)

end Machine
end Sys2Proof
end

section
/-! PROOFS. The configuration of a channel (41_port_driver.md R101, R107): every operation leaves it alone but a
CONFIGURE that runs, and so does every step. -/

namespace Sys2Proof
namespace Machine

variable {s t : State} {c d : Chan} {i : Instr}

/-- `y` is `x` but for the ring buffer, the result on port RBP and RXRDY. -/
def SameButReceived (x y : Channel) : Prop :=
  y = { x with rb := y.rb, rbOut := y.rbOut, per := { x.per with rxrdy := y.per.rxrdy } }

/-- Operation `i` has left the pins, the vector enables and the channels as they were, but for what is received, and
RXRDY where it is no RX_DISPATCH. -/
def ConfigurationSame (i : Instr) (s t : State) : Prop :=
  t.pins = s.pins ∧ t.intc = s.intc ∧
  ∀ c, SameButReceived (s.chan c) (t.chan c) ∧ (i ≠ .rxDispatch c → (t.chan c).per.rxrdy = (s.chan c).per.rxrdy)

theorem configurationSame_of_chan_eq (hpins : t.pins = s.pins) (hintc : t.intc = s.intc)
    (h : ∀ d, t.chan d = s.chan d) : ConfigurationSame i s t :=
  ⟨hpins, hintc, fun d => by rw [h d]; exact ⟨rfl, fun _ => rfl⟩⟩

theorem configurationSame_of_chan (hpins : t.pins = s.pins) (hintc : t.intc = s.intc) (hothers : othersSame c s t)
    (hc : SameButReceived (s.chan c) (t.chan c))
    (hrx : i ≠ .rxDispatch c → (t.chan c).per.rxrdy = (s.chan c).per.rxrdy) : ConfigurationSame i s t := by
  refine ⟨hpins, hintc, fun d => ?_⟩
  by_cases hd : d = c
  · rw [hd]; exact ⟨hc, hrx⟩
  · rw [hothers d hd]; exact ⟨rfl, fun _ => rfl⟩

theorem configurationSame_setRb (i : Instr) (c : Chan) (rb : Rb) (s : State) : ConfigurationSame i s (setRb c rb s) :=
  configurationSame_of_chan rfl rfl (fun _ hd => setRb_chan_ne rb hd) (by rw [setRb_chan_same]; rfl)
    fun _ => by rw [setRb_chan_same]

theorem configurationSame_setRbOut (i : Instr) (c : Chan) (r : RbResult) (s : State) :
    ConfigurationSame i s (setRbOut c r s) :=
  configurationSame_of_chan rfl rfl (fun _ hd => setRbOut_chan_ne r hd) (by rw [setRbOut_chan_same]; rfl)
    fun _ => by rw [setRbOut_chan_same]

/-- Either an operation leaves the configuration alone, or it is a CONFIGURE that runs its steps. -/
theorem exec_configuration (h : exec i s = .next t) :
    ConfigurationSame i s t ∨
    ∃ c div, i = .configure c div ∧ s.fg = .idle ∧ (s.chan c).st = .uninitialized ∧
      t = respond .ok 0 (configureSteps c div s) := by
  cases exec_next h with
  | unchanged | completes | notConfigured | alreadyConfigured | emptyQueue | starts =>
    exact .inl (configurationSame_of_chan_eq rfl rfl fun _ => rfl)
  | configures div hi hf hu => exact .inr ⟨_, div, hi, hf, hu, rfl⟩
  | reads v rb => exact .inl (configurationSame_setRb i _ rb s)
  | enqueues b rb => exact .inl (configurationSame_setRb i _ rb s)
  | answers r n => exact .inl (configurationSame_setRbOut i _ r { s with draws := n })
  | dequeues v rb =>
    refine .inl (configurationSame_of_chan (c := chanOfInstr i) rfl rfl (fun d hd => ?_) ?_ fun _ => ?_)
    · rw [setRbOut_chan_ne _ hd, setRb_chan_ne _ hd]
    · rw [setRbOut_chan_same, setRb_chan_same]; rfl
    · rw [setRbOut_chan_same, setRb_chan_same]
  | dispatches rb hi =>
    refine .inl (configurationSame_of_chan (c := chanOfInstr i) rfl rfl (fun d hd => PerChan.get_set_ne _ _ hd) ?_
      fun hne => absurd hi hne)
    rw [State.chan, State.chan, PerChan.get_set_same]; rfl

theorem exec_configurationSame (hi : ∀ c d, i ≠ .configure c d) (h : exec i s = .next t) :
    ConfigurationSame i s t := by
  obtain hsame | ⟨c, div, hconf, -⟩ := exec_configuration h
  · exact hsame
  · exact absurd hconf (hi c div)

theorem SameButReceived.st_eq {x y : Channel} (h : SameButReceived x y) : y.st = x.st := by rw [h]
theorem SameButReceived.baud_eq {x y : Channel} (h : SameButReceived x y) : y.baud = x.baud := by rw [h]
theorem SameButReceived.line_eq {x y : Channel} (h : SameButReceived x y) : y.line = x.line := by rw [h]
theorem SameButReceived.per_eq {x y : Channel} (h : SameButReceived x y) :
    y.per = { x.per with rxrdy := y.per.rxrdy } := congrArg Channel.per h
theorem SameButReceived.txrdy_eq {x y : Channel} (h : SameButReceived x y) : y.per.txrdy = x.per.txrdy := by rw [h]

/-! ### The channel state along a step -/

/-- The one way a channel state moves (41_port_driver.md R107). -/
theorem exec_st (c : Chan) (h : exec i s = .next t) :
    (t.chan c).st = (s.chan c).st ∨
    (s.fg = .idle ∧ (s.chan c).st = .uninitialized ∧ ∃ div, i = .configure c div) := by
  obtain ⟨-, -, hsame⟩ | ⟨e, div, hi, hf, hu, rfl⟩ := exec_configuration h
  · exact .inl (hsame c).1.st_eq
  · by_cases hc : c = e
    · subst hc; exact .inr ⟨hf, hu, div, hi⟩
    · rw [respond_chan, configureSteps_chan_ne _ hc]; exact .inl rfl

theorem regWrite_st (r : RegVal) : ((regWrite c r s).chan d).st = (s.chan d).st := by
  by_cases hd : d = c
  · rw [hd, regWrite_chan_same]
  · rw [regWrite_chan_ne r hd]

theorem modPer_st (f : Periph → Periph) : ((modPer c f s).chan d).st = (s.chan d).st := by
  by_cases hd : d = c
  · rw [hd, modPer, chan_modChan_same]
  · rw [modPer, chan_modChan_ne _ _ hd]

theorem startSending_chan (L : List Byte) : (startSending c L s).chan d = s.chan d := by
  cases L <;> rfl

theorem step_st (c : Chan) (h : step s = .next t) :
    (t.chan c).st = (s.chan c).st ∨
    (s.fg = .idle ∧ (s.chan c).st = .uninitialized ∧ ∃ div rest, decodeCmd s.port = .ok (.configure c div) rest) := by
  cases step_next h with
  | stutter | nothing | illegal | timesOut | polls | presents => exact .inl rfl
  | commands es i p _ _ hf hd he =>
    refine (exec_st c he).imp_right fun ⟨_, hu, div, hi⟩ => ⟨hf, hu, div, p, ?_⟩
    rw [hd, hi]
  | operates e es i _ _ hi he =>
    refine .inl ((exec_st c he).resolve_right fun ⟨_, _, div, hconf⟩ => ?_)
    rw [hconf] at hi; cases hi
  | transmits => rw [startSending_chan]; exact .inl (regWrite_st _)
  | pollSends => exact .inl (regWrite_st _)
  | arrives => exact .inl (modPer_st _)
  | readies => exact .inl (modPer_st _)

end Machine
end Sys2Proof
end

section
/-! PROOFS. A transmission in flight (41_port_driver.md R109, 42_formatted_output.md R120): what the peripherals and the
interrupt side leave alone between its transmit steps, and the bytes that reach the line. -/

namespace Sys2Proof
namespace Machine

variable {s t u : State} {c d : Chan} {i : Instr} {es : List Event}

/-! ### The operations of the interrupt side and of port RBP and the foreground -/

theorem exec_leavesForeground (hi : isCommand i = false) (h : exec i s = .next t) :
    t.cfg = s.cfg ∧ t.fg = s.fg ∧ t.resp = s.resp ∧ t.responses = s.responses ∧ t.port = s.port ∧ t.sched = s.sched := by
  cases exec_next h with
  | unchanged | enqueues | answers | dequeues | dispatches => exact ⟨rfl, rfl, rfl, rfl, rfl, rfl⟩
  | completes _ hc | notConfigured hc | starts _ hc => rw [hi] at hc; cases hc
  | alreadyConfigured _ he | emptyQueue _ he | reads _ _ he | configures _ he => rw [he] at hi; cases hi

theorem enqueueOn_goes_on (hn : 0 < s.cfg.n) (b : Byte) : ∃ t, enqueueOn c b s = .next t := by
  obtain ⟨rb, -, h⟩ := enqueueOn_eq (c := c) (b := b) hn
  exact ⟨_, h⟩

theorem pushOn_goes_on (hn : 0 < s.cfg.n) (b : Byte) : ∃ t, pushOn c b s = .next t := by
  by_cases hr : (s.chan c).st = .running
  · rw [pushOn_running hr]; exact enqueueOn_goes_on hn b
  · exact ⟨s, pushOn_not_running hr⟩

theorem exec_rxDispatch_goes_on (hn : 0 < s.cfg.n) (c : Chan) : ∃ t, exec (.rxDispatch c) s = .next t := by
  rw [exec, execRxDispatch]
  split
  · exact pushOn_goes_on (by exact hn) _
  · exact ⟨s, rfl⟩

/-! ### Background events -/

/-- The foreground is where it was, no byte has been sent, and no transmitter that was ready is busy. -/
structure TransmitSame (s t : State) : Prop where
  fg        : t.fg = s.fg
  resp      : t.resp = s.resp
  responses : t.responses = s.responses
  line      : ∀ d, (t.chan d).line = (s.chan d).line
  txrdy     : ∀ d, (s.chan d).per.txrdy = true → (t.chan d).per.txrdy = true

theorem TransmitSame.refl (s : State) : TransmitSame s s := ⟨rfl, rfl, rfl, fun _ => rfl, fun _ h => h⟩

theorem TransmitSame.trans (h : TransmitSame s t) (k : TransmitSame t u) : TransmitSame s u :=
  ⟨k.fg.trans h.fg, k.resp.trans h.resp, k.responses.trans h.responses, fun d => (k.line d).trans (h.line d),
    fun d hd => k.txrdy d (h.txrdy d hd)⟩

theorem transmitSame_modPer (c : Chan) {f : Periph → Periph} (hf : ∀ p, p.txrdy = true → (f p).txrdy = true)
    (s : State) : TransmitSame s (modPer c f s) := by
  have hch (d : Chan) : (modPer c f s).chan d = s.chan d ∨
      (modPer c f s).chan d = { s.chan d with per := f (s.chan d).per } := by
    by_cases hd : d = c
    · subst hd; exact .inr (chan_modChan_same _ _ _)
    · exact .inl (chan_modChan_ne _ _ hd)
  refine ⟨rfl, rfl, rfl, fun d => ?_, fun d htx => ?_⟩ <;> obtain h | h := hch d <;> rw [h]
  · exact htx
  · exact hf _ htx

theorem exec_rxDispatch_transmitSame (h : exec (.rxDispatch c) s = .next t) : TransmitSame s t := by
  obtain ⟨-, hfg, hresp, hresponses, -, -⟩ := exec_leavesForeground rfl h
  obtain ⟨-, -, hch⟩ := exec_configurationSame (by simp) h
  have hsame (d : Chan) : SameButReceived (s.chan d) (t.chan d) := (hch d).1
  exact ⟨hfg, hresp, hresponses, fun d => (hsame d).line_eq, fun d hd => (hsame d).txrdy_eq.trans hd⟩

theorem envTxReady_txrdy (h : (s.chan c).per.txEn = true) : ((envTxReady c s).chan c).per.txrdy = true := by
  unfold envTxReady
  split
  · rw [modPer, chan_modChan_same]
  · next hready => simpa [h] using hready

/-- The transmitter of a Running channel is enabled, so that its transmit-ready event leaves TXRDY set. -/
theorem step_txReady_txrdy (hinv : StateInv s) (hr : (s.chan c).st = .running) (hs : s.sched = .txReady c :: es)
    (h : step s = .next t) : (t.chan c).per.txrdy = true := by
  obtain ⟨-, hch, -⟩ := hinv
  obtain ⟨-, -, -, -, hconf, -⟩ := hch c
  obtain ⟨-, htxEn, -⟩ := hconf hr
  rw [step_event hs] at h
  rw [outcome_inj h]
  exact envTxReady_txrdy htxEn

theorem takeEvent_background {e : Event} (he : isBackground e = true) (hn : 0 < s.cfg.n) :
    ∃ t, takeEvent e s = .next t ∧ TransmitSame s t ∧ t.sched = s.sched := by
  cases e with
  | irq w =>
    obtain ⟨t, ht⟩ := exec_rxDispatch_goes_on hn (chanOf w)
    obtain ⟨-, -, -, -, -, hsched⟩ := exec_leavesForeground rfl ht
    exact ⟨t, ht, exec_rxDispatch_transmitSame ht, hsched⟩
  | arrive c b =>
    refine ⟨_, rfl, ?_⟩
    rw [envArrive]
    split
    · exact ⟨transmitSame_modPer c (fun _ h => by exact h) s, rfl⟩
    · exact ⟨.refl s, rfl⟩
  | txReady c =>
    refine ⟨_, rfl, ?_⟩
    rw [envTxReady]
    split
    · exact ⟨transmitSame_modPer c (fun _ _ => rfl) s, rfl⟩
    · exact ⟨.refl s, rfl⟩
  | fg | present | prx | rbp => cases he

/-- One background event, taken by a step. -/
theorem step_background {e : Event} (hinv : StateInv s) (he : isBackground e = true) (hs : s.sched = e :: es) :
    ∃ t, step s = .next t ∧ StateInv t ∧ TransmitSame s t ∧ t.sched = es := by
  have hn : 0 < s.cfg.n := Nat.zero_lt_of_lt hinv.two_le_n
  obtain ⟨t, ht, hsame, hsched⟩ := takeEvent_background (s := { s with sched := es }) he hn
  rw [← step_event hs] at ht
  exact ⟨t, ht, step_keeps_stateInv hinv ht, ⟨hsame.fg, hsame.resp, hsame.responses, hsame.line, hsame.txrdy⟩, hsched⟩

theorem run_background {evs : List Event} (hinv : StateInv s) (he : evs.all isBackground = true)
    (hs : s.sched = evs ++ es) :
    ∃ t, Host.Core.run Sys2Proof.core evs.length s = .next t ∧ StateInv t ∧ TransmitSame s t ∧ t.sched = es := by
  induction evs generalizing s with
  | nil => exact ⟨s, rfl, hinv, .refl s, hs⟩
  | cons e evs ih =>
    rw [List.all_cons, Bool.and_eq_true] at he
    obtain ⟨he, hevs⟩ := he
    obtain ⟨t, ht, htinv, hst, htsched⟩ := step_background hinv he hs
    obtain ⟨u, hu, huinv, htu, husched⟩ := ih htinv hevs htsched
    exact ⟨u, (run_succ ht _).trans hu, huinv, hst.trans htu, husched⟩

/-! ### One round, and all of them -/

/-- From `s` to `t` the line of channel `c` has gained `L`, and no other line has changed. -/
def LineGains (c : Chan) (L : List Byte) (s t : State) : Prop :=
  (t.chan c).line = (s.chan c).line ++ L ∧ ∀ d, d ≠ c → (t.chan d).line = (s.chan d).line

theorem LineGains.trans {L M : List Byte} (h : LineGains c L s t) (k : LineGains c M t u) :
    LineGains c (L ++ M) s u := by
  obtain ⟨hL, hothers⟩ := h
  obtain ⟨hM, hothers'⟩ := k
  exact ⟨by rw [hM, hL, List.append_assoc], fun d hd => (hothers' d hd).trans (hothers d hd)⟩

theorem lineGains_tx_readSr (c : Chan) (b : Byte) (s : State) : LineGains c [b] s (tx c b (readSr c s)) := by
  refine ⟨?_, fun d hd => ?_⟩
  · rw [tx, regWrite_chan_same]; rfl
  · rw [tx, regWrite_chan_ne _ hd]; rfl

theorem TransmitSame.lineGains (h : TransmitSame s t) (c : Chan) : LineGains c [] s t :=
  ⟨by rw [h.line, List.append_nil], fun d _ => h.line d⟩

/-- In a round TXRDY is set when the transmit step comes, whatever the background does. -/
theorem run_sendRound {b : Byte} {rest : List Byte} {r : List Event × List Event} (hinv : StateInv s)
    (hf : s.fg = .sending c b rest) (hr : r.1.all isBackground = true ∧ r.2.all isBackground = true)
    (hs : s.sched = sendRound c r ++ es) :
    ∃ t, Host.Core.run Sys2Proof.core (sendRound c r).length s = .next (startSending c rest t) ∧
      StateInv (startSending c rest t) ∧ LineGains c [b] s t ∧ t.responses = s.responses ∧ t.sched = es := by
  obtain ⟨hbefore, hafter⟩ := hr
  rw [sendRound, List.append_assoc, List.cons_append, List.append_assoc] at hs
  obtain ⟨s₁, hrun₁, hinv₁, hsame₁, hs₁⟩ := run_background hinv hbefore hs
  obtain ⟨s₂, hstep₂, hinv₂, hsame₂, hs₂⟩ := step_background hinv₁ rfl hs₁
  obtain ⟨s₃, hrun₃, hinv₃, hsame₃, hs₃⟩ := run_background hinv₂ hafter hs₂
  have hf₁ : s₁.fg = .sending c b rest := hsame₁.fg.trans hf
  have hready := step_txReady_txrdy hinv₁ (hinv₁.running_of_sending hf₁) hs₁ hstep₂
  have hsame := (hsame₁.trans hsame₂).trans hsame₃
  have hstep := step_sending_ready hs₃ (hsame.fg.trans hf) (hsame₃.txrdy c hready)
  refine ⟨_, ?_, step_keeps_stateInv hinv₃ hstep,
    (hsame.lineGains c).trans (lineGains_tx_readSr c b { s₃ with sched := es }), hsame.responses, rfl⟩
  rw [sendRound, List.length_append, List.length_cons, List.length_append, run_add _ _ hrun₁, run_succ hstep₂,
    run_add _ _ hrun₃]
  exact run_succ hstep 0

/-- Round after round the bytes go out in order, and after the last the operation responds. -/
theorem run_sendRounds {L : List Byte} {rounds : List (List Event × List Event)} (hlen : rounds.length = L.length)
    (hrounds : ∀ r ∈ rounds, r.1.all isBackground = true ∧ r.2.all isBackground = true)
    (hinv : StateInv (startSending c L s)) (hs : s.sched = rounds.flatMap (sendRound c) ++ es) :
    ∃ t, Host.Core.run Sys2Proof.core (rounds.flatMap (sendRound c)).length (startSending c L s) =
        .next (respond .ok 0 t) ∧
      LineGains c L s t ∧ t.responses = s.responses ∧ t.sched = es := by
  induction L generalizing s rounds with
  | nil =>
    obtain rfl := List.eq_nil_of_length_eq_zero hlen
    exact ⟨s, rfl, (TransmitSame.refl s).lineGains c, rfl, hs⟩
  | cons b rest ih =>
    obtain ⟨r, rounds, rfl⟩ := List.exists_cons_of_length_eq_add_one hlen
    obtain ⟨hr, hrounds⟩ := List.forall_mem_cons.1 hrounds
    rw [List.flatMap_cons, List.append_assoc] at hs
    obtain ⟨t, hrun, htinv, hline, hresp, hsched⟩ := run_sendRound hinv rfl hr hs
    obtain ⟨u, hrest, hline', hresp', hsched'⟩ := ih (Nat.succ.inj hlen) hrounds htinv hsched
    refine ⟨u, ?_, hline.trans hline', hresp'.trans hresp, hsched'⟩
    rw [List.flatMap_cons, List.length_append, run_add _ _ hrun]
    exact hrest

theorem startSending_of_sending {b : Byte} {rest : List Byte} (h : s.fg = .sending c b rest) :
    startSending c (b :: rest) s = s := by
  rw [startSending, ← h]

end Machine
end Sys2Proof
end

section
open Sys2Proof Sys2Proof.Machine

/-- Settles O20: the channel, the pins, the vectors and the log after the eight steps are read off by the
`configureSteps_` lemmas, and the response is all that is new elsewhere. -/
theorem configureRunsTheEightSteps : Obligations.ConfigureRunsTheEightSteps := by
  unfold Obligations.ConfigureRunsTheEightSteps
  refine fun s c div hf => ⟨fun hu => ?_, fun hu => ?_⟩
  · obtain ⟨hcfg, -, -, hresps, hport, hsched, hdraws⟩ := configureSteps_fg (c := c) div s
    refine ⟨_, exec_configure div hf hu, ?_, fun e he => ?_, fun q => ?_, fun v => ?_, ?_, respond_resp _ _ _, ?_,
      respond_fg _ _ _, ?_, ?_, ?_, ?_⟩
    · rw [respond_chan, configureSteps_chan_same]
    · rw [respond_chan, configureSteps_chan_ne div he]
    · rw [pinGet_congr (respond_pins _ _ _), configureSteps_pins]; rfl
    · rw [respond_intc, configureSteps_intc, mem_addKey]; rfl
    · rw [respond_extlog, configureSteps_extlog]; rfl
    · rw [respond_responses, hresps]
    · rw [respond_cfg, hcfg]
    · rw [respond_port, hport]
    · rw [respond_sched, hsched]
    · rw [respond_draws, hdraws]
  · rw [exec_configure_refused div hf hu, respond_idle hf]

/-- Settles O26: the status read and the THR write are `tx_readSr`, and `startSending` goes on or responds. -/
theorem transmitStepSendsOneByte : Obligations.TransmitStepSendsOneByte := by
  unfold Obligations.TransmitStepSendsOneByte
  intro s c b rest es hs hf x sent
  have hsent (htx : x.per.txrdy = true) : step s = .next (startSending c rest sent) := by
    rw [step_sending_ready hs hf htx, tx_readSr (s := { s with sched := es }) b htx]
  refine ⟨fun htx hnil => ?_, fun htx b' rest' hcons => ?_, fun htx => step_sending_holds hs hf htx⟩
  · rw [hsent htx, hnil]; rfl
  · rw [hsent htx, hcons]; rfl

/-- Settles O27: one step lemma for each of the three branches of the poll step. -/
theorem pollStepReadsStatusOnce : Obligations.PollStepReadsStatusOnce := by
  unfold Obligations.PollStepReadsStatusOnce
  intro s c b left es hs hf x
  refine ⟨fun h0 => ?_, fun h0 htx => ?_, fun h0 htx => step_polling_continues hs hf h0 htx⟩
  · subst h0; exact step_polling_timesOut hs hf
  · rw [step_polling_ready hs hf h0 htx, tx_readSr (s := { s with sched := es }) b htx]; rfl

/-- Settles O28: on a Running channel the push is RB.ENQUEUE, which answers where `N` is not 0. -/
theorem pushReceivedIsTheEnqueue : Obligations.PushReceivedIsTheEnqueue := by
  unfold Obligations.PushReceivedIsTheEnqueue
  intro s c b hn n x t
  refine ⟨fun hr => ?_, fun hr => pushOn_not_running hr, fun h hp => h.running_of_rxPending hp⟩
  rw [exec_pushReceived_running b hr, exec_rbEnqueue (enqueue_eq_fields (by omega) b _), setRb_eq]
  rfl

/-- Settles O29: READ_BYTE is RB.DEQUEUE and a response, and in a buffer that satisfies R15 the element at `head` has
been written (`dequeueOn_eq`). -/
theorem readByteReturnsTheOldestByte : Obligations.ReadByteReturnsTheOldestByte := by
  unfold Obligations.ReadByteReturnsTheOldestByte
  intro s c hf hr hwf x
  rw [exec_readByte_eq_dequeueOn hf hr]
  refine ⟨fun h0 => ?_, fun h0 => ⟨Config.freeData s.draws, ?_⟩⟩
  · obtain ⟨v, hv, he⟩ := dequeueOn_eq (s := s) raiseEmptyQueue (fun v s => respond .ok (v.setWidth 16) s) hwf h0
    refine ⟨v, hv, ?_⟩
    rw [he, setRb_eq, respond_idle (by exact hf)]
    rfl
  · rw [dequeueOn_empty _ _ h0, raiseEmptyQueue, respond_idle (by exact hf)]

/-- Settles O30: the data is the view `countBits` zero-extended, which holds a count below `N`. -/
theorem pendingCountRespondsTheCount : Obligations.PendingCountRespondsTheCount := by
  unfold Obligations.PendingCountRespondsTheCount
  intro s c hf hr
  refine ⟨((s.chan c).rb.countBits s.cfg.n).setWidth 16, ?_, fun hcfg hwf => ?_⟩
  · rw [exec_pendingCount hf hr, respond_idle hf]
  · obtain ⟨-, hn, -⟩ := hcfg
    obtain ⟨-, -, -, -, hcount, -, -⟩ := hwf
    rw [toNat_setWidth_countBits hn hcount]
    exact ⟨rfl, Nat.le_sub_one_of_lt hcount⟩

/-- Settles O46: what an operation but CONFIGURE may change of a channel is what is received
(`exec_configurationSame`). -/
theorem onlyConfigureWritesConfiguration : Obligations.OnlyConfigureWritesConfiguration := by
  unfold Obligations.OnlyConfigureWritesConfiguration
  intro s t i hi h
  obtain ⟨hpins, hintc, hch⟩ := exec_configurationSame hi h
  refine ⟨hpins, hintc, fun c => ?_⟩
  obtain ⟨hsame, hrx⟩ := hch c
  exact ⟨hsame.st_eq, hsame.baud_eq, hsame.per_eq, hrx, hsame.line_eq⟩

/-- Settles O47: the state of a channel is as before but where CONFIGURE is issued on an Uninitialized one (`step_st`),
and the invariant, which the step keeps, knows no channel Configured. -/
theorem channelStateMovesForwardOnly : Obligations.ChannelStateMovesForwardOnly := by
  unfold Obligations.ChannelStateMovesForwardOnly
  intro s t c hinv h
  obtain ⟨-, hch, -⟩ := step_keeps_stateInv hinv h
  obtain ⟨-, hconfigured, -⟩ := hch c
  refine ⟨fun hr => ?_, hconfigured, fun hu hr => ?_⟩ <;> obtain hsame | ⟨hf, hu', hissued⟩ := step_st c h
  · exact hsame.trans hr
  · rw [hr] at hu'; cases hu'
  · rw [hsame, hu] at hr; cases hr
  · exact ⟨hf, hissued⟩

/-- Settles O57: each round sends the next byte (`run_sendRound`), and after the last `startSending` responds. -/
theorem sendingDeliversExactlyItsBytes : Obligations.SendingDeliversExactlyItsBytes := by
  unfold Obligations.SendingDeliversExactlyItsBytes
  intro s c b rest rounds es hinv hf hlen hrounds hs
  have hstart := startSending_of_sending hf
  obtain ⟨t, hrun, ⟨hline, hothers⟩, hresp, hsched⟩ := run_sendRounds hlen hrounds (by rwa [hstart]) hs
  rw [hstart] at hrun
  exact ⟨_, hrun, hline, hothers, respond_fg _ _ t, respond_resp _ _ t, by rw [respond_responses, hresp], hsched⟩

/-- Settles O59: `left` polls use up the limit and the next step times out (`run_polling_timesOut`). -/
theorem boundedTransmitTimesOut : Obligations.BoundedTransmitTimesOut := by
  unfold Obligations.BoundedTransmitTimesOut
  exact fun s c b left es hf htx hs => run_polling_timesOut rfl hf htx hs

/-- Settles O24: a list of one byte is in flight. -/
theorem writeByteStartsSending : Obligations.WriteByteStartsSending := by
  unfold Obligations.WriteByteStartsSending
  exact fun s c b hf hr => exec_writeByte b hf hr

/-- Settles O25: the limit is the number of polls left. -/
theorem writeByteBoundedStartsPolling : Obligations.WriteByteBoundedStartsPolling := by
  unfold Obligations.WriteByteBoundedStartsPolling
  exact fun s c b limit hf hr => exec_writeByteBounded b limit hf hr

end

section
/-! PROOFS. The digits of a number (42_formatted_output.md R122 to R124), and what the commands of the formatted output
family answer on a Running channel (R120 to R123). -/

namespace Sys2Proof
namespace Machine

/-! ### Digit characters -/

theorem asciiValue_digit : ∀ d < 16, asciiValue (digit d) = d := by decide

theorem isDecChar_digit : ∀ d < 10, isDecChar (digit d) = true := by decide

theorem isHexChar_digit : ∀ d < 16, isHexChar (digit d) = true := by decide

/-! ### Digit lists -/

/-- The characters of the lowest `n` digits of `v`, the most significant first. -/
def digitsOf (base n v : Nat) : List Byte :=
  (List.range n).map fun i => digit (v / base ^ (n - 1 - i) % base)

@[simp] theorem length_digitsOf (base n v : Nat) : (digitsOf base n v).length = n := by simp [digitsOf]

theorem all_digitsOf {base : Nat} {p : Byte → Bool} (hb : 0 < base) (hp : ∀ d < base, p (digit d) = true) (n v : Nat) :
    (digitsOf base n v).all p = true := by
  simp [digitsOf, hp _ (Nat.mod_lt _ hb)]

theorem digitsOf_succ (base n v : Nat) :
    digitsOf base (n + 1) v = digitsOf base n (v / base) ++ [digit (v % base)] := by
  have hlast : digit (v / base ^ (n + 1 - 1 - n) % base) = digit (v % base) := by simp
  have hinit : ∀ i ∈ List.range n,
      digit (v / base ^ (n + 1 - 1 - i) % base) = digit (v / base / base ^ (n - 1 - i) % base) := fun i hi => by
    have hi := List.mem_range.1 hi
    rw [Nat.div_div_eq_div_mul, ← pow_succ', show n - 1 - i + 1 = n + 1 - 1 - i by omega]
  rw [digitsOf, List.range_succ, List.map_append, List.map_congr_left hinit, List.map_singleton, hlast, digitsOf]

theorem numeral_concat (base : Nat) (f : Byte → Nat) (L : List Byte) (b : Byte) :
    numeral base f (L ++ [b]) = numeral base f L * base + f b := by simp [numeral]

/-- The last digit is the remainder by the base, and those before it are the digits of the quotient. -/
theorem numeral_digitsOf {base : Nat} (h0 : 0 < base) (h16 : base ≤ 16) (n v : Nat) :
    numeral base asciiValue (digitsOf base n v) = v % base ^ n := by
  induction n generalizing v with
  | zero => simp [digitsOf, numeral, Nat.mod_one]
  | succ n ih =>
    have hd := asciiValue_digit (v % base) (by have := Nat.mod_lt v h0; omega)
    rw [digitsOf_succ, numeral_concat, ih, hd, pow_succ', Nat.mod_mul, Nat.mul_comm, Nat.add_comm]

theorem numeral_digitsOf_of_lt {base n v : Nat} (h0 : 0 < base) (h16 : base ≤ 16) (hv : v < base ^ n) :
    numeral base asciiValue (digitsOf base n v) = v := by
  rw [numeral_digitsOf h0 h16, Nat.mod_eq_of_lt hv]

/-! ### The bytes of WRITE_UDEC and WRITE_HEX32 -/

theorem digitCount_spec (v : Word) :
    v.toNat < 10 ^ digitCount v.toNat ∧ (∀ m, 1 ≤ m → v.toNat < 10 ^ m → digitCount v.toNat ≤ m) ∧
    digitCount v.toNat ≤ 10 := by
  obtain ⟨henough, hleast, -, hle⟩ := leastDigits_spec (base := 10) (v := v.toNat) (fuel := 9) (start := 1) (le_refl _)
    (by omega) (by have := v.isLt; omega)
  exact ⟨henough, hleast, hle⟩

theorem udecBytes_eq_digitsOf (v : Word) : udecBytes v = digitsOf 10 (digitCount v.toNat) v.toNat := by
  unfold udecBytes
  split
  · next h => rw [h]; decide
  · rfl

theorem hexBytes_eq_digitsOf (v : Word) : hexBytes v = digitsOf 16 8 v.toNat := by
  refine List.map_congr_left fun i hi => ?_
  have hi := List.mem_range.1 hi
  rw [BitVec.extractLsb'_toNat, Nat.shiftRight_eq_div_pow, show 28 - 4 * i = 4 * (8 - 1 - i) by omega, pow_mul,
    show 2 ^ 4 = 16 from rfl]

/-! ### What the commands answer -/

variable {s : State} {c : Chan} {L : List Byte}

theorem startSending_of_ne_nil (c : Chan) (s : State) (hL : L ≠ []) :
    ∃ b rest, L = b :: rest ∧ startSending c L s = { s with fg := .sending c b rest } :=
  (startSending_cases L s).resolve_left fun h => hL h.1

theorem exec_writeText (text : List Byte) (hf : s.fg = .idle) (hr : (s.chan c).st = .running) :
    exec (.writeText c text) s = .next (startSending c text s) := by
  rw [exec, execWriteText, whenRunning_running _ hf hr, textBytes]

theorem exec_writeUdec (v : Word) (hf : s.fg = .idle) (hr : (s.chan c).st = .running) :
    exec (.writeUdec c v) s = .next (startSending c (udecBytes v) s) := by
  rw [exec, execWriteUdec, whenRunning_running _ hf hr]

theorem exec_writeHex32 (v : Word) (hf : s.fg = .idle) (hr : (s.chan c).st = .running) :
    exec (.writeHex32 c v) s = .next (startSending c (hexBytes v) s) := by
  rw [exec, execWriteHex32, whenRunning_running _ hf hr]

end Machine
end Sys2Proof
end

section
open Sys2Proof Sys2Proof.Machine

/-- Settles O32: the bytes are the lowest `digitCount` decimal digits of the operand (`udecBytes_eq_digitsOf`), enough to
hold it and no more than that (`digitCount_spec`). -/
theorem writeUdecStartsSendingTheDigits : Obligations.WriteUdecStartsSendingTheDigits := by
  unfold Obligations.WriteUdecStartsSendingTheDigits
  intro s c v hf hr
  obtain ⟨hlt, hleast, hle⟩ := digitCount_spec v
  obtain ⟨b, rest, hL, hs⟩ := startSending_of_ne_nil c s (digitBytes_ne_nil v).1
  refine ⟨b, rest, by rw [exec_writeUdec v hf hr, hs], ?_⟩
  rw [← hL, udecBytes_eq_digitsOf, length_digitsOf]
  exact ⟨all_digitsOf (by decide) isDecChar_digit _ _, numeral_digitsOf_of_lt (by decide) (by decide) hlt, hlt, hleast, hle⟩

/-- Settles O33: the bytes are the lowest eight hexadecimal digits of the operand (`hexBytes_eq_digitsOf`), and its 32 bits
are below `16 ^ 8`. -/
theorem writeHex32StartsSendingEightDigits : Obligations.WriteHex32StartsSendingEightDigits := by
  unfold Obligations.WriteHex32StartsSendingEightDigits
  intro s c v hf hr
  obtain ⟨b, rest, hL, hs⟩ := startSending_of_ne_nil c s (digitBytes_ne_nil v).2
  refine ⟨b, rest, by rw [exec_writeHex32 v hf hr, hs], ?_⟩
  rw [← hL, hexBytes_eq_digitsOf, length_digitsOf]
  exact ⟨rfl, all_digitsOf (by decide) isHexChar_digit _ _, numeral_digitsOf_of_lt (by decide) (by decide) v.isLt⟩

/-- Settles O31: the bytes to send are the text itself, and `startSending` responds where there are none. -/
theorem writeTextStartsSendingTheText : Obligations.WriteTextStartsSendingTheText := by
  unfold Obligations.WriteTextStartsSendingTheText
  intro s c text _ hf hr
  rw [exec_writeText text hf hr]
  constructor
  · rintro rfl
    rw [startSending, respond_idle hf]
  · rintro b rest rfl
    rw [startSending]

end

section
/-! PROOFS. The words of register accesses (43_channel_mux.md R139, R140, R144; 20_memory.md R42, R43): which bits a
written word has, what the MODE word holds, and that an address tells the register. -/

namespace Sys2Proof
namespace Machine

variable {k : Config} {c : Chan} {l : Layout} {f : Option FrameFields}

/-! ### The two families -/

theorem groupOf_eq (k : Config) (c : Chan) :
    groupOf k c = if c = 0 then k.uartGroup else if (k.desc.get c).altGroup then .g1 else .g0 := by
  by_cases h : c = 0 <;> simp [groupOf, kindOf, h]

theorem modeOf_eq (k : Config) (c : Chan) :
    modeOf k c = if c = 0 then ⟨.none, none, none⟩ else ⟨.none, some k.usartCharlen, some k.usartStopbits⟩ := by
  by_cases h : c = 0 <;> simp [modeOf, kindOf, h]

/-! ### The word of a write -/

theorem physAccess_regWrite (hl : layoutOf k c = l) (v : RegVal) :
    physAccess k (.regWrite c v) = some ⟨(k.desc.get c).regbase + (regSlot l (regOfVal v)).off,
      (regSlot l (regOfVal v)).width, some (valWord l (frameOf k c) v)⟩ := by
  rw [← hl]; rfl

theorem valWord_lt (l : Layout) (f : Option FrameFields) (v : RegVal) :
    valWord l f v < 2 ^ (regSlot l (regOfVal v)).width.bits := Nat.mod_lt _ (by positivity)

theorem valWord_ctrl (hl : l.FieldsFit) (rstrx rsttx rxen txen : Bool) :
    valWord l f (.ctrl rstrx rsttx rxen txen) =
      atBit rstrx l.rstrxBit ||| atBit rsttx l.rsttxBit ||| atBit rxen l.rxenBit ||| atBit txen l.txenBit := by
  obtain ⟨-, hbits, -⟩ := hl
  have hlt (b : Bool) {i : Nat} (hi : i ∈ [l.rstrxBit, l.rsttxBit, l.rxenBit, l.txenBit]) :
      atBit b i < 2 ^ l.ctrl.width.bits := atBit_lt b (hbits i hi)
  exact valWord_of_lt (Nat.or_lt_two_pow
    (Nat.or_lt_two_pow (Nat.or_lt_two_pow (hlt _ (by simp)) (hlt _ (by simp))) (hlt _ (by simp))) (hlt _ (by simp)))

theorem testBit_valWord_ctrl (hl : l.FieldsFit) (rstrx rsttx rxen txen : Bool) (i : Nat) :
    (valWord l f (.ctrl rstrx rsttx rxen txen)).testBit i = true ↔
      (rstrx = true ∧ i = l.rstrxBit) ∨ (rsttx = true ∧ i = l.rsttxBit) ∨
        (rxen = true ∧ i = l.rxenBit) ∨ (txen = true ∧ i = l.txenBit) := by
  rw [valWord_ctrl hl]
  simp only [Nat.testBit_or, testBit_atBit, Bool.or_eq_true, Bool.and_eq_true, decide_eq_true_eq, or_assoc,
    eq_comm (b := i)]

/-- The four command bits stand at four places, so each is read back by itself. -/
theorem ctrlOfWord_valWord (hl : l.FieldsFit) (rstrx rsttx rxen txen : Bool) :
    ctrlOfWord l (valWord l f (.ctrl rstrx rsttx rxen txen)) = .ctrl rstrx rsttx rxen txen := by
  have hnodup := hl.1
  simp only [List.nodup_cons, List.mem_cons, List.not_mem_nil, or_false, not_or, List.nodup_nil] at hnodup
  obtain ⟨⟨h12, h13, h14⟩, ⟨h23, h24⟩, h34, -⟩ := hnodup
  rw [valWord_ctrl hl]
  simp [ctrlOfWord, testBit_atBit, h12, h13, h14, h23, h24, h34, Ne.symm h12, Ne.symm h13, Ne.symm h14, Ne.symm h23,
    Ne.symm h24, Ne.symm h34]

theorem testBit_valWord_ier (hl : l.FieldsFit) (rxrdy : Bool) (i : Nat) :
    (valWord l f (.ier rxrdy)).testBit i = true ↔ rxrdy = true ∧ i = l.ierRxrdyBit := by
  obtain ⟨-, -, hier, -⟩ := hl
  have hword : valWord l f (.ier rxrdy) = atBit rxrdy l.ierRxrdyBit := valWord_of_lt (atBit_lt rxrdy hier)
  rw [hword, testBit_atBit, Bool.and_eq_true, decide_eq_true_eq, eq_comm (b := i)]

theorem valWord_thr (l : Layout) (f : Option FrameFields) (b : Byte) : valWord l f (.thr b) = b.toNat :=
  valWord_of_lt (b.isLt.trans_le (Nat.pow_le_pow_right (by decide) (eight_le_bits l.thr.width)))

theorem valWord_brgr (hl : l.FieldsFit) (d : Half) : valWord l f (.brgr d) = d.toNat := by
  obtain ⟨-, -, -, -, -, -, hbrgr, -⟩ := hl
  exact valWord_of_lt (d.isLt.trans_le (Nat.pow_le_pow_right (by decide) hbrgr))

/-! ### The MODE word -/

theorem valWord_modeOf_uart (hc : c = 0) (hl : l.FieldsFit) :
    valWord l (frameOf k c) (.mode (modeOf k c)) = l.parNoneCode * 2 ^ l.parPos := by
  obtain ⟨-, -, -, -, -, -, -, hpar⟩ := hl
  rw [frameOf_eq, modeOf_eq, if_pos hc, if_pos hc]
  exact valWord_of_lt hpar

theorem exists_code_of_mem {f : FieldCode} {v : Nat} (h : v ∈ f.codes.map Prod.fst) : ∃ x, (v, x) ∈ f.codes := by
  simpa using h

/-- The three fields share no bit, so that the MODE word of an encoded frame is the sum of the codes in place. -/
theorem valWord_mode_eq_add {l : UsartLayout} (hl : l.FieldsFit) (hf : l.FrameFits) {v x n y : Nat}
    (hx : (v, x) ∈ l.chrl.codes) (hy : (n, y) ∈ l.nbstop.codes) :
    valWord l.toLayout (some l.toFrameFields) (.mode ⟨.none, some v, some n⟩) =
      l.parWord .none + l.chrl.place x + l.nbstop.place y := by
  rw [(valWord_mode hl hf hx hy).1]
  obtain ⟨-, -, hchrl, hnbstop, hdisjoint⟩ := hf
  have hpx := (hchrl _ hx).2
  have hpxy : (l.parWord .none ||| l.chrl.place x) &&& l.nbstop.place y = 0 := by
    rw [Nat.and_or_distrib_right, (hnbstop _ hy).2, hdisjoint _ hx _ hy, Nat.or_zero]
  rw [or_eq_add hpxy, or_eq_add hpx]

theorem valWord_modeOf_usart (hc : c ≠ 0) (hk : k.UsartFits) :
    ∃ x y, (k.usartCharlen, x) ∈ k.layoutUsart.chrl.codes ∧ (k.usartStopbits, y) ∈ k.layoutUsart.nbstop.codes ∧
      valWord k.layoutUsart.toLayout (frameOf k c) (.mode (modeOf k c)) =
        k.layoutUsart.parNoneCode * 2 ^ k.layoutUsart.parPos + x * 2 ^ k.layoutUsart.chrl.pos +
          y * 2 ^ k.layoutUsart.nbstop.pos := by
  obtain ⟨hl, hf, hcharlen, hstopbits⟩ := hk
  obtain ⟨x, hx⟩ := exists_code_of_mem hcharlen
  obtain ⟨y, hy⟩ := exists_code_of_mem hstopbits
  refine ⟨x, y, hx, hy, ?_⟩
  rw [frameOf_eq, modeOf_eq, if_neg hc, if_neg hc]
  exact valWord_mode_eq_add hl hf hx hy

theorem testBit_eq_false_of_and_eq_zero {a b i : Nat} (hab : a &&& b = 0) (ha : a.testBit i = true) :
    b.testBit i = false := by
  simpa [ha] using congrArg (Nat.testBit · i) hab

theorem testBit_of_or_or_eq {p x x' y y' i : Nat} (hxp : x &&& p = 0) (hxy' : x &&& y' = 0)
    (h : p ||| x ||| y = p ||| x' ||| y') (hi : x.testBit i = true) : x'.testBit i = true := by
  have hp : p.testBit i = false := testBit_eq_false_of_and_eq_zero hxp hi
  have hy' : y'.testBit i = false := testBit_eq_false_of_and_eq_zero hxy' hi
  simpa [hi, hp, hy'] using congrArg (Nat.testBit · i) h

/-- A field that shares no bit with the other fields of either word is told by the word. -/
theorem eq_of_or_or_eq {p x x' y y' : Nat} (hpx : p &&& x = 0) (hpx' : p &&& x' = 0) (hxy' : x &&& y' = 0)
    (hx'y : x' &&& y = 0) (h : p ||| x ||| y = p ||| x' ||| y') : x = x' := by
  rw [Nat.and_comm] at hpx hpx'
  exact Nat.eq_of_testBit_eq fun i => Bool.eq_iff_iff.2
    ⟨testBit_of_or_or_eq hpx hxy' h, testBit_of_or_or_eq hpx' hx'y h.symm⟩

/-! ### Addresses -/

/-- The seven abstract registers (10_state.md R25). -/
def allRegs : List Reg := [.ctrl, .mode, .ier, .sr, .rhr, .thr, .brgr]

theorem mem_allRegs (r : Reg) : r ∈ allRegs := by cases r <;> decide

theorem reg_eq_of_off_eq (hl : l.Wf) {r r' : Reg} (h : (regSlot l r).off = (regSlot l r').off) : r = r' :=
  have hnodup : (allRegs.map fun r => (regSlot l r).off).Nodup := hl.2
  List.inj_on_of_nodup_map hnodup (mem_allRegs r) (mem_allRegs r') h

end Machine
end Sys2Proof
end

section
/-! PROOFS. What the collaborators do with an access and with their own events (43_channel_mux.md R143 to R150), and the
frame of an operation (R140). -/

namespace Sys2Proof
namespace Machine

variable {s t : State} {c : Chan} {i : Instr}

/-! ### Effects of the written values -/

theorem writeEffect_ctrl (rstrx rsttx rxen txen : Bool) (p : Periph) :
    writeEffect (.ctrl rstrx rsttx rxen txen) p = { p with
      rxEn := rxen || (p.rxEn && !rstrx), rxrdy := p.rxrdy && !rstrx,
      txEn := txen || (p.txEn && !rsttx), txrdy := p.txrdy && !rsttx } := by
  cases rstrx <;> cases rsttx <;> cases rxen <;> cases txen <;> simp [writeEffect]

theorem writeEffect_ier (rxrdy : Bool) (p : Periph) :
    writeEffect (.ier rxrdy) p = { p with ierRxrdy := p.ierRxrdy || rxrdy } := by
  cases rxrdy <;> simp [writeEffect]

/-- A write that is not to THR is on the peripheral alone. -/
theorem regWrite_ch {v : RegVal} (hv : lineGain v = []) (c : Chan) (s : State) :
    (regWrite c v s).ch = s.ch.set c { s.ch.get c with per := writeEffect v (s.ch.get c).per } := by
  rw [regWrite_eq, hv]
  simp only [List.append_nil]

theorem regWrite_line {v : RegVal} (hv : lineGain v = []) (c : Chan) (s : State) :
    ((regWrite c v s).chan c).line = (s.chan c).line := by
  rw [regWrite_chan_same, hv]
  exact List.append_nil _

/-! ### The two events of a peripheral -/

theorem takeEvent_arrive_enabled {b : Byte} (h : (s.chan c).per.rxEn = true) :
    takeEvent (.arrive c b) s = .next { s with
      ch := s.ch.set c { s.ch.get c with per := { (s.ch.get c).per with rhr := b, rxrdy := true } } } := by
  rw [takeEvent, envArrive, if_pos h, modPer_eq]

theorem takeEvent_arrive_disabled {b : Byte} (h : (s.chan c).per.rxEn = false) :
    takeEvent (.arrive c b) s = .next s := by
  rw [takeEvent, envArrive, if_neg (by simp [h])]

theorem takeEvent_txReady_enabled (h : (s.chan c).per.txEn = true ∧ (s.chan c).per.txrdy = false) :
    takeEvent (.txReady c) s = .next { s with
      ch := s.ch.set c { s.ch.get c with per := { (s.ch.get c).per with txrdy := true } } } := by
  rw [takeEvent, envTxReady, if_pos (by simpa using h), modPer_eq]

theorem takeEvent_txReady_disabled (h : ¬ ((s.chan c).per.txEn = true ∧ (s.chan c).per.txrdy = false)) :
    takeEvent (.txReady c) s = .next s := by
  rw [takeEvent, envTxReady, if_neg (by simpa using h)]

/-! ### What an operation leaves alone -/

theorem exec_othersSame (h : exec i s = .next t) : othersSame (chanOfInstr i) s t := by
  intro d hd
  cases exec_next h with
  | unchanged | completes | notConfigured | alreadyConfigured | emptyQueue | starts => rfl
  | reads v rb | enqueues b rb => exact setRb_chan_ne rb hd
  | configures div => rw [respond_chan, configureSteps_chan_ne div hd]
  | answers r n => exact setRbOut_chan_ne r hd
  | dequeues v rb => exact (setRbOut_chan_ne _ hd).trans (setRb_chan_ne rb hd)
  | dispatches rb => exact PerChan.get_set_ne _ _ hd

theorem exec_outsideSame (h : exec i s = .next t) : outsideSame s t := by
  cases exec_next h with
  | unchanged | completes | notConfigured | alreadyConfigured | emptyQueue | starts | reads | enqueues | answers
  | dequeues | dispatches => exact ⟨rfl, rfl, rfl⟩
  | configures div =>
    obtain ⟨hcfg, -, -, -, hport, hsched, -⟩ := configureSteps_fg (c := chanOfInstr i) div s
    exact ⟨(respond_cfg _ _ _).trans hcfg, (respond_port _ _ _).trans hport, (respond_sched _ _ _).trans hsched⟩

end Machine
end Sys2Proof
end

section
open Sys2Proof Sys2Proof.Machine

/-- Settles O41: an access goes to the slot of its register in the layout of the channel's family (`layoutOf_eq`), and
the word of a write is its placed fields, none of them cut (`valWord_of_lt`). -/
theorem physicalAccessesFollowTheLayout : Obligations.PhysicalAccessesFollowTheLayout := by
  unfold Obligations.PhysicalAccessesFollowTheLayout
  intro k c l access
  have hl : layoutOf k c = l := layoutOf_eq k c
  refine ⟨?ctrl, ?mode, ?ier, ?thr, ?brgr, fun _ _ => ?sr, fun _ => ?rhr, fun w => ⟨rfl, BitVec.toNat_ofNat _ _⟩,
    fun _ _ _ _ => ⟨rfl, rfl, rfl, rfl⟩⟩
  case ctrl =>
    exact fun a b e f => ⟨_, physAccess_regWrite hl _, fun hfit =>
      ⟨valWord_lt _ _ _, testBit_valWord_ctrl hfit a b e f, ctrlOfWord_valWord hfit a b e f⟩⟩
  case mode =>
    refine ⟨_, physAccess_regWrite hl _, fun hc hfit => ⟨valWord_lt _ _ _, valWord_modeOf_uart hc hfit⟩,
      fun hc hk => ⟨valWord_lt _ _ _, ?_⟩⟩
    have husart : l = k.layoutUsart.toLayout := if_neg hc
    rw [husart]
    exact valWord_modeOf_usart hc hk
  case ier =>
    exact fun a => ⟨_, physAccess_regWrite hl _, fun hfit => ⟨valWord_lt _ _ _, testBit_valWord_ier hfit a⟩⟩
  case thr => intro b; rw [physAccess_regWrite hl, valWord_thr]; rfl
  case brgr => exact fun d => ⟨_, physAccess_regWrite hl _, fun hfit => valWord_brgr hfit d⟩
  case sr | rhr => rw [← hl]; rfl

/-- Settles O42: each frame field shares no bit with the rest of either word, so the words agree on it
(`eq_of_or_or_eq`), and two values have two codes (`place_inj`). -/
theorem modeWordTellsTheFrame : Obligations.ModeWordTellsTheFrame := by
  unfold Obligations.ModeWordTellsTheFrame
  intro l v v' n n' hl hf hv hv' hn hn' h
  obtain ⟨x, hx⟩ := exists_code_of_mem hv
  obtain ⟨x', hx'⟩ := exists_code_of_mem hv'
  obtain ⟨y, hy⟩ := exists_code_of_mem hn
  obtain ⟨y', hy'⟩ := exists_code_of_mem hn'
  rw [(valWord_mode hl hf hx hy).1, (valWord_mode hl hf hx' hy').1] at h
  obtain ⟨hchrl, hnbstop, hpar, hpar', hdisjoint⟩ := hf
  have hxx' : l.chrl.place x = l.chrl.place x' :=
    eq_of_or_or_eq (hpar _ hx).2 (hpar _ hx').2 (hdisjoint _ hx _ hy') (hdisjoint _ hx' _ hy) h
  have hyy' : l.nbstop.place y = l.nbstop.place y' := by
    rw [Nat.or_right_comm, Nat.or_right_comm _ (l.chrl.place x')] at h
    exact eq_of_or_or_eq (hpar' _ hy).2 (hpar' _ hy').2 (by rw [Nat.and_comm]; exact hdisjoint _ hx' _ hy)
      (by rw [Nat.and_comm]; exact hdisjoint _ hx _ hy') h
  exact ⟨congrArg Prod.fst (place_inj hchrl hx hx' hxx'), congrArg Prod.fst (place_inj hnbstop hy hy' hyy')⟩

/-- Settles O44: no operation but a CONFIGURE that runs touches a pin or a vector (`exec_configuration`), and CONFIGURE
touches those of its channel's descriptor. -/
theorem operationTouchesOneChannel : Obligations.OperationTouchesOneChannel := by
  unfold Obligations.OperationTouchesOneChannel
  intro s t i h
  refine ⟨exec_othersSame h, exec_outsideSame h, ?_⟩
  obtain ⟨hpins, hintc, -⟩ | ⟨c, div, rfl, -, -, rfl⟩ := exec_configuration h
  · exact ⟨fun q _ _ => pinGet_congr hpins q, fun v _ => by rw [hintc]⟩
  · refine ⟨fun q hrx htx => ?_, fun v hv => ?_⟩
    · rw [pinGet_congr (respond_pins _ _ _), configureSteps_pins]
      exact if_neg (not_or.2 ⟨hrx, htx⟩)
    · rw [respond_intc, configureSteps_intc, mem_addKey]
      exact or_iff_right hv

/-- Settles O11: an arrival fills the holding register where the receiver is enabled (`takeEvent_arrive_enabled`) and
is passed over otherwise. -/
theorem byteArrivalFillsTheHoldingRegister : Obligations.ByteArrivalFillsTheHoldingRegister := by
  unfold Obligations.ByteArrivalFillsTheHoldingRegister
  intro s c b es hs
  rw [step_event hs]
  exact ⟨takeEvent_arrive_enabled (s := { s with sched := es }),
    takeEvent_arrive_disabled (s := { s with sched := es })⟩

/-- Settles O12: a transmit-ready event sets TXRDY where it is enabled (`takeEvent_txReady_enabled`) and is passed over
otherwise. -/
theorem transmitReadyRaisesTheFlag : Obligations.TransmitReadyRaisesTheFlag := by
  unfold Obligations.TransmitReadyRaisesTheFlag
  intro s c es hs
  rw [step_event hs]
  exact ⟨takeEvent_txReady_enabled (s := { s with sched := es }),
    takeEvent_txReady_disabled (s := { s with sched := es })⟩

/-- Settles O21: the group and the mode are chosen by the channel's family (`groupOf_eq`, `modeOf_eq`). -/
theorem familiesDifferInGroupAndMode : Obligations.FamiliesDifferInGroupAndMode := by
  unfold Obligations.FamiliesDifferInGroupAndMode
  intro k c
  rw [groupOf_eq, modeOf_eq]
  exact ⟨fun hc => ⟨if_pos hc, if_pos hc⟩, fun hc => ⟨if_neg hc, if_neg hc⟩⟩

/-- Settles O38: none of the three writes gains a byte on the line, so each is its `writeEffect` and nothing else. -/
theorem controlWriteEffect : Obligations.ControlWriteEffect := by
  unfold Obligations.ControlWriteEffect
  intro s c rstrx rsttx rxen txen i d x p
  refine ⟨?_, ?_, regWrite_ch rfl c s, fun v hv => ⟨regWrite_line ?_ c s, fun _ hne => regWrite_chan_ne v hne⟩⟩
  · rw [regWrite_ch rfl, writeEffect_ctrl]
  · rw [regWrite_ch rfl, writeEffect_ier]
  · simp only [List.mem_cons, List.not_mem_nil, or_false] at hv
    obtain rfl | rfl | rfl := hv <;> rfl

/-- Settles O39, from what a write and the two reads are as record updates (`regWrite_eq`, `readRhr_eq`). -/
theorem holdingRegisterAccesses : Obligations.HoldingRegisterAccesses := by
  unfold Obligations.HoldingRegisterAccesses
  intro s c b
  refine ⟨?_, rfl, rfl, fun hrx => ?_, ?_⟩
  · rw [tx, regWrite_eq]; rfl
  · rw [rhrValue, if_pos hrx]
  · rw [readRhr_eq]

/-- Settles O40: each pin operation is a write of its one pin, and IntcEnable adds its vector to the enabled ones. -/
theorem pinAndVectorOperations : Obligations.PinAndVectorOperations := by
  unfold Obligations.PinAndVectorOperations
  intro s c q v g
  exact ⟨pinGet_pinRelease q, fun q' => pinGet_pinGroup q q' g, pinGet_pinPullup q, mem_addKey s.intc v⟩

/-- Settles O43: two accesses of one channel at one address are at one offset, which names one register
(`reg_eq_of_off_eq`). -/
theorem addressNamesOneRegister : Obligations.AddressNamesOneRegister := by
  unfold Obligations.AddressNamesOneRegister
  intro k c r r' hwf h
  rw [← layoutOf_eq] at hwf
  exact reg_eq_of_off_eq hwf (Nat.add_left_cancel h)

end

section
/-! PROOFS. The receive interrupt (60_exceptions.md R166 to R171): when it is pending, what a dispatch leaves behind, and
that the order of two dispatches does not matter. -/

namespace Sys2Proof
namespace Machine

variable {s t : State} {c d : Chan} {rb : Rb} {i : Instr}

/-! ### When it is pending -/

theorem rxPending_iff : rxPending c s = true ↔
    (s.chan c).per.rxrdy = true ∧ (s.chan c).per.ierRxrdy = true ∧ (s.cfg.desc.get c).vector ∈ s.intc := by
  simp only [rxPending, intcEnabled, Bool.and_eq_true, List.contains_iff_mem]
  tauto

theorem rxPending_of_rxrdy_clear (h : (s.chan c).per.rxrdy = false) : rxPending c s = false := by
  rw [rxPending, h, Bool.and_false]

theorem rxPending_resetWith (k : Config) (u : PerChan PowerOn) (c : Chan) :
    rxPending c (State.resetWith k u) = false := by
  rw [rxPending, chan_resetWith]; rfl

theorem StateInv.rxPending_of_not_running (h : StateInv s) (hr : (s.chan c).st ≠ .running) : rxPending c s = false :=
  eq_false_of_ne_true fun hp => hr (h.running_of_rxPending hp)

/-! ### The dispatch -/

/-- The state after the dispatch of channel `c` has left the buffer `rb` behind: SR and RHR are read, RXRDY is clear
(60_exceptions.md R168). -/
def dispatched (c : Chan) (rb : Rb) (s : State) : State := { s with
  ch := s.ch.set c { s.ch.get c with rb := rb, per := { (s.ch.get c).per with rxrdy := false } },
  extlog := s.extlog ++ [.readSr c true (s.ch.get c).per.txrdy, .readRhr c (s.ch.get c).per.rhr] }

theorem dispatched_chan_same :
    (dispatched c rb s).chan c = { s.chan c with rb := rb, per := { (s.chan c).per with rxrdy := false } } :=
  PerChan.get_set_same _ _ _

theorem dispatched_chan_ne (rb : Rb) (h : d ≠ c) : (dispatched c rb s).chan d = s.chan d :=
  PerChan.get_set_ne _ _ h

theorem setRb_dispatched (rb₀ : Rb) : setRb c rb (dispatched c rb₀ s) = dispatched c rb s := by
  rw [setRb_eq]
  simp only [dispatched, PerChan.get_set_same, PerChan.set_set]

theorem rxPending_dispatched_same : rxPending c (dispatched c rb s) = false :=
  rxPending_of_rxrdy_clear (by rw [dispatched_chan_same])

theorem rxPending_dispatched_ne (rb : Rb) (h : d ≠ c) : rxPending d (dispatched c rb s) = rxPending d s := by
  rw [rxPending, rxPending, dispatched_chan_ne rb h]; rfl

theorem exec_rxDispatch_not_pending (h : rxPending c s = false) : exec (.rxDispatch c) s = .next s := by
  rw [exec, execRxDispatch, h]; rfl

/-- The dispatch is the two reads and PUSH_RECEIVED of the byte read. -/
theorem exec_rxDispatch_eq_pushOn (h : rxPending c s = true) :
    exec (.rxDispatch c) s = pushOn c (s.chan c).per.rhr (dispatched c (s.chan c).rb s) := by
  obtain ⟨hvalue, hread⟩ := readRhr_readSr h
  rw [exec, execRxDispatch, if_pos h]
  simp only [hvalue, hread]
  rfl

theorem exec_rxDispatch_pending (h : rxPending c s = true) (hr : (s.chan c).st = .running)
    (he : enqueue s.cfg.n (s.chan c).per.rhr (s.chan c).rb = some rb) :
    exec (.rxDispatch c) s = .next (dispatched c rb s) := by
  have hr' : ((dispatched c (s.chan c).rb s).chan c).st = .running := by rw [dispatched_chan_same]; exact hr
  have he' : enqueue (dispatched c (s.chan c).rb s).cfg.n (s.chan c).per.rhr
      ((dispatched c (s.chan c).rb s).chan c).rb = some rb := by rw [dispatched_chan_same]; exact he
  rw [exec_rxDispatch_eq_pushOn h, pushOn_running hr']
  exact (exec_rbEnqueue he').trans (congrArg _ (setRb_dispatched _))

theorem rxPending_after_dispatch (h : exec (.rxDispatch c) s = .next t) : rxPending c t = false := by
  cases hp : rxPending c s with
  | false =>
    rw [exec_rxDispatch_not_pending hp] at h
    rwa [outcome_inj h]
  | true =>
    rw [exec_rxDispatch_eq_pushOn hp] at h
    obtain ⟨-, rb, -, rfl⟩ | ⟨-, rfl⟩ := pushOn_next h
    · rw [setRb_dispatched]; exact rxPending_dispatched_same
    · exact rxPending_dispatched_same

/-! ### The enables -/

theorem ne_configure_of_not_command (hi : isCommand i = false) (c : Chan) (div : Half) : i ≠ .configure c div := by
  rintro rfl; cases hi

theorem SameButReceived.ierRxrdy_eq {x y : Channel} (h : SameButReceived x y) : y.per.ierRxrdy = x.per.ierRxrdy := by
  rw [h]

/-- The interrupt-enable bit is set by CONFIGURE and cleared by nothing. -/
theorem exec_keeps_ierRxrdy (h : exec i s = .next t) (hier : (s.chan c).per.ierRxrdy = true) :
    (t.chan c).per.ierRxrdy = true := by
  obtain ⟨-, -, hsame⟩ | ⟨e, div, -, -, -, rfl⟩ := exec_configuration h
  · exact (hsame c).1.ierRxrdy_eq.trans hier
  · by_cases hc : c = e
    · subst hc; rw [respond_chan, configureSteps_chan_same]
    · rw [respond_chan, configureSteps_chan_ne _ hc]; exact hier

/-- A vector is enabled by CONFIGURE and disabled by nothing. -/
theorem exec_keeps_intc {v : Nat} (h : exec i s = .next t) (hv : v ∈ s.intc) : v ∈ t.intc := by
  obtain ⟨-, hintc, -⟩ | ⟨e, div, -, -, -, rfl⟩ := exec_configuration h
  · rwa [hintc]
  · rw [respond_intc, configureSteps_intc, mem_addKey]; exact .inr hv

/-! ### Two dispatches -/

/-- Two dispatches of different channels touch different channels and agree but for the order of the log. -/
theorem dispatched_comm {rb' : Rb} (h : c ≠ d) :
    (dispatched d rb' (dispatched c rb s)).extlog.Perm (dispatched c rb (dispatched d rb' s)).extlog ∧
    { dispatched d rb' (dispatched c rb s) with extlog := [] } =
      { dispatched c rb (dispatched d rb' s) with extlog := [] } := by
  constructor
  · simp only [dispatched, PerChan.get_set_ne _ _ h, PerChan.get_set_ne _ _ h.symm, List.append_assoc]
    exact List.perm_append_comm.append_left _
  · simp only [dispatched, PerChan.get_set_ne _ _ h, PerChan.get_set_ne _ _ h.symm, PerChan.set_comm _ _ _ h]

/-- The dispatch of one channel leaves that of another as it was. -/
theorem runOps_two_dispatches {rb' : Rb} (h : d ≠ c) (hc : rxPending c s = true) (hd : rxPending d s = true)
    (hrc : (s.chan c).st = .running) (hrd : (s.chan d).st = .running)
    (hec : enqueue s.cfg.n (s.chan c).per.rhr (s.chan c).rb = some rb)
    (hed : enqueue s.cfg.n (s.chan d).per.rhr (s.chan d).rb = some rb') :
    runOps [.rxDispatch c, .rxDispatch d] s = .next (dispatched d rb' (dispatched c rb s)) := by
  have hchan := dispatched_chan_ne (s := s) rb h
  have hsecond : exec (.rxDispatch d) (dispatched c rb s) = .next (dispatched d rb' (dispatched c rb s)) := by
    refine exec_rxDispatch_pending ?_ ?_ ?_
    · rw [rxPending_dispatched_ne rb h]; exact hd
    · rw [hchan]; exact hrd
    · rw [hchan]; exact hed
  rw [runOps_cons (exec_rxDispatch_pending hc hrc hec), runOps_cons hsecond]; rfl

end Machine
end Sys2Proof
end

section
/-! PROOFS. Faults (60_exceptions.md R160 to R165): a command on a channel that is not Running, and the cause of each
response with a fault's status. -/

namespace Sys2Proof
namespace Machine

variable {s t : State} {i : Instr}

/-- Every command but CONFIGURE has the common precondition (41_port_driver.md R100). -/
theorem exec_command_not_running (hf : s.fg = .idle) (hi : isCommand i = true) (hne : ∀ c d, i ≠ .configure c d)
    (hr : (s.chan (chanOfInstr i)).st ≠ .running) : exec i s = .next (respond .notConfigured 0 s) := by
  cases i with
  | configure c d => exact absurd rfl (hne c d)
  | writeByte | writeText | writeUdec | writeHex32 | readByte | pendingCount | writeByteBounded =>
    simp only [exec, execWriteByte, execWriteText, execWriteUdec, execWriteHex32, execReadByte, execPendingCount,
      execWriteByteBounded]
    exact whenRunning_not_running _ hf hr
  | rbEnqueue | rbDequeue | rbCount | pushReceived | rxDispatch => cases hi

/-- The table of faults, for operation `i` issued in `s`: the cause of a response with the status. -/
def OperationCause (i : Instr) (s : State) : Status → Prop
  | .ok => True
  | .emptyQueue => i = .readByte (chanOfInstr i) ∧
      (s.chan (chanOfInstr i)).st = .running ∧ (s.chan (chanOfInstr i)).rb.count = 0
  | .notConfigured => (∀ c d, i ≠ .configure c d) ∧ (s.chan (chanOfInstr i)).st ≠ .running
  | .alreadyConfigured => (∃ d, i = .configure (chanOfInstr i) d) ∧ (s.chan (chanOfInstr i)).st ≠ .uninitialized
  | .illegalCommand => False
  | .txTimeout => False

/-- The table of faults, for a step from `s`. -/
def StepCause (s : State) : Status → Prop
  | .ok => True
  | .emptyQueue => s.fg = .idle ∧ ∃ c rest, decodeCmd s.port = .ok (.readByte c) rest ∧
      (s.chan c).st = .running ∧ (s.chan c).rb.count = 0
  | .notConfigured => s.fg = .idle ∧ ∃ i rest, decodeCmd s.port = .ok i rest ∧
      (∀ c d, i ≠ .configure c d) ∧ (s.chan (chanOfInstr i)).st ≠ .running
  | .alreadyConfigured => s.fg = .idle ∧ ∃ c d rest, decodeCmd s.port = .ok (.configure c d) rest ∧
      (s.chan c).st ≠ .uninitialized
  | .illegalCommand => s.fg = .idle ∧ ∃ h rest, decodeCmd s.port = .illegal h rest
  | .txTimeout => ∃ c b, s.fg = .polling c b 0

theorem exec_cause (h : exec i s = .next t) : t.responses = s.responses ∨ OperationCause i s t.resp.status := by
  cases exec_next h with
  | unchanged | starts | enqueues | answers | dequeues | dispatches => exact .inl rfl
  | completes | reads | configures => exact .inr trivial
  | notConfigured _ _ hne hr => exact .inr ⟨hne, hr⟩
  | alreadyConfigured d hi _ hu => exact .inr ⟨⟨d, hi⟩, hu⟩
  | emptyQueue d hi _ hr h0 => exact .inr ⟨hi, hr, h0⟩

/-- The cause of an issued command's response is the step's. -/
theorem stepCause_of_operationCause {rest : List Byte} (hf : s.fg = .idle) (hd : decodeCmd s.port = .ok i rest) :
    ∀ st, OperationCause i s st → StepCause s st
  | .ok, _ => trivial
  | .emptyQueue, ⟨hi, hr, h0⟩ => ⟨hf, _, rest, hi ▸ hd, hr, h0⟩
  | .notConfigured, ⟨hne, hr⟩ => ⟨hf, i, rest, hd, hne, hr⟩
  | .alreadyConfigured, ⟨⟨d, hi⟩, hu⟩ => ⟨hf, _, d, rest, hi ▸ hd, hu⟩

theorem startSending_cause {u : State} (hu : u.responses = s.responses) (c : Chan) (L : List Byte) :
    (startSending c L u).responses = s.responses ∨ StepCause s (startSending c L u).resp.status := by
  obtain ⟨-, he⟩ | ⟨b, rest, -, he⟩ := startSending_cases (c := c) L u
  · rw [he]; exact .inr trivial
  · rw [he]; exact .inl hu

theorem step_cause (h : step s = .next t) : t.responses = s.responses ∨ StepCause s t.resp.status := by
  cases step_next h with
  | stutter | nothing | polls | arrives | readies | presents => exact .inl rfl
  | commands es i p t _ hf hd he => exact (exec_cause he).imp_right fun hc => stepCause_of_operationCause hf hd _ hc
  | operates e es i t _ hi he =>
    obtain ⟨-, -, -, hresponses, -⟩ := exec_leavesForeground hi he
    exact .inl hresponses
  | illegal b p es _ hf hd => exact .inr ⟨hf, b, p, hd⟩
  | transmits es c b rest => exact startSending_cause (by rfl) c rest
  | timesOut es c b _ hf => exact .inr ⟨c, b, hf⟩
  | pollSends => exact .inr trivial

end Machine
end Sys2Proof
end

section
/-! PROOFS. The block never stops (60_exceptions.md R160, 70_reset_and_hazards.md R200): from a state of the invariant
every operation and every event goes on. -/

namespace Sys2Proof
namespace Machine

variable {s : State} {c : Chan}

theorem whenRunning_goes_on {k : State → Result} (hk : ∃ t, k s = .next t) : ∃ t, whenRunning c s k = .next t := by
  by_cases hf : s.fg = .idle
  · by_cases hr : (s.chan c).st = .running
    · rwa [whenRunning_running k hf hr]
    · exact ⟨_, whenRunning_not_running k hf hr⟩
  · exact ⟨s, whenRunning_busy k hf⟩

theorem exec_configure_goes_on (c : Chan) (div : Half) (s : State) : ∃ t, exec (.configure c div) s = .next t := by
  by_cases hf : s.fg = .idle
  · by_cases hu : (s.chan c).st = .uninitialized
    · exact ⟨_, exec_configure div hf hu⟩
    · exact ⟨_, exec_configure_refused div hf hu⟩
  · exact ⟨s, exec_command_busy rfl hf⟩

/-- In a buffer that satisfies R15 the element at `head` is inside the store. -/
theorem dequeueOn_goes_on (hw : (s.chan c).rb.Wf s.cfg.n) (f : State → State) (g : Byte → State → State) :
    ∃ t, dequeueOn c s f g = .next t := by
  by_cases h0 : (s.chan c).rb.count = 0
  · exact ⟨_, dequeueOn_empty f g h0⟩
  · obtain ⟨v, -, he⟩ := dequeueOn_eq f g hw h0
    exact ⟨_, he⟩

theorem exec_goes_on (h : StateInv s) (i : Instr) : ∃ t, exec i s = .next t := by
  have hn : 0 < s.cfg.n := Nat.zero_lt_of_lt h.two_le_n
  cases i with
  | configure c div => exact exec_configure_goes_on c div s
  | writeByte | writeText | writeUdec | writeHex32 | pendingCount | writeByteBounded =>
    simp only [exec, execWriteByte, execWriteText, execWriteUdec, execWriteHex32, execPendingCount,
      execWriteByteBounded]
    exact whenRunning_goes_on ⟨_, rfl⟩
  | readByte c => rw [exec, execReadByte]; exact whenRunning_goes_on (dequeueOn_goes_on (h.rb_wf c) _ _)
  | rbEnqueue c b => exact enqueueOn_goes_on hn b
  | rbDequeue c => rw [exec, execRbDequeue]; exact dequeueOn_goes_on (h.rb_wf c) _ _
  | rbCount c => exact ⟨_, exec_rbCount c s⟩
  | pushReceived c b => exact pushOn_goes_on hn b
  | rxDispatch c => exact exec_rxDispatch_goes_on hn c

theorem runDecoded_goes_on (h : StateInv s) (d : Decoded) : ∃ t, runDecoded d s = .next t := by
  cases d with
  | ok i rest => exact exec_goes_on (s := { s with port := rest }) h i
  | illegal | incomplete | noOperation => exact ⟨_, rfl⟩

theorem runPort_goes_on (h : StateInv s) (w : Wire) : ∃ t, runPort w s = .next t := by
  unfold runPort
  split
  · exact exec_goes_on h _
  all_goals exact ⟨s, rfl⟩

theorem fgStep_goes_on (h : StateInv s) : ∃ t, fgStep s = .next t := by
  cases hf : s.fg with
  | idle => rw [fgStep_idle hf]; exact runDecoded_goes_on h _
  | sending => exact ⟨_, fgStep_sending hf⟩
  | polling => exact ⟨_, fgStep_polling hf⟩

theorem takeEvent_goes_on (h : StateInv s) (e : Event) : ∃ t, takeEvent e s = .next t := by
  cases e with
  | fg => exact fgStep_goes_on h
  | irq w | prx w | rbp c w => rw [takeEvent]; exact runPort_goes_on h _
  | arrive | txReady | present => exact ⟨_, rfl⟩

theorem step_goes_on (h : StateInv s) : ∃ t, step s = .next t := by
  cases hs : s.sched with
  | nil => exact ⟨s, step_idle hs⟩
  | cons e es => rw [step_event hs]; exact takeEvent_goes_on (s := { s with sched := es }) h e

end Machine
end Sys2Proof
end

section
/-! PROOFS. A stalled transmit (60_exceptions.md R163): what keeps a foreground that sends where it is. -/

namespace Sys2Proof
namespace Machine

variable {s t u : State} {c d : Chan}

/-- The foreground, its responses, port CMD and every line are as before. -/
structure ForegroundHeld (s t : State) : Prop where
  fg        : t.fg = s.fg
  resp      : t.resp = s.resp
  responses : t.responses = s.responses
  port      : t.port = s.port
  line      : ∀ d, (t.chan d).line = (s.chan d).line

theorem ForegroundHeld.refl (s : State) : ForegroundHeld s s := ⟨rfl, rfl, rfl, rfl, fun _ => rfl⟩

theorem ForegroundHeld.trans (h : ForegroundHeld s t) (k : ForegroundHeld t u) : ForegroundHeld s u :=
  ⟨k.fg.trans h.fg, k.resp.trans h.resp, k.responses.trans h.responses, k.port.trans h.port,
    fun d => (k.line d).trans (h.line d)⟩

/-- The schedule is no part of what is held. -/
theorem ForegroundHeld.of_taken {es : List Event} (h : ForegroundHeld { s with sched := es } t) : ForegroundHeld s t :=
  ⟨h.fg, h.resp, h.responses, h.port, h.line⟩

/-- The foreground sends on channel `c`, whose transmitter is busy and is not to become ready. -/
structure Stalled (c : Chan) (s : State) : Prop where
  sending     : ∃ b rest, s.fg = .sending c b rest
  txrdy       : (s.chan c).per.txrdy = false
  unscheduled : .txReady c ∉ s.sched

/-- A stall lasts while the foreground is held, TXRDY is as it was and nothing new is scheduled. -/
theorem Stalled.holds {es : List Event} {e : Event} (h : Stalled c s) (hs : s.sched = e :: es)
    (hheld : ForegroundHeld s t) (htx : (t.chan c).per.txrdy = (s.chan c).per.txrdy) (ht : t.sched = es) :
    ForegroundHeld s t ∧ Stalled c t := by
  refine ⟨hheld, by rw [hheld.fg]; exact h.sending, htx.trans h.txrdy, fun hmem => h.unscheduled ?_⟩
  rw [hs, ← ht]
  exact List.mem_cons_of_mem e hmem

/-- What a change of a peripheral leaves alone in one channel it leaves alone in all. -/
theorem modPer_keeps {α : Type} {f : Periph → Periph} (g : Channel → α)
    (hg : ∀ x : Channel, g { x with per := f x.per } = g x) (s : State) :
    g ((modPer c f s).chan d) = g (s.chan d) := by
  by_cases hd : d = c
  · subst hd; rw [modPer, chan_modChan_same, hg]
  · rw [modPer, chan_modChan_ne _ _ hd]

theorem foregroundHeld_modPer (c : Chan) (f : Periph → Periph) (s : State) : ForegroundHeld s (modPer c f s) :=
  ⟨rfl, rfl, rfl, rfl, fun _ => modPer_keeps Channel.line (fun _ => rfl) s⟩

/-- No step ends a stall: no command is taken, no byte is sent, and TXRDY of the channel stays clear. -/
theorem step_stalled (h : Stalled c s) (hs : step s = .next t) : ForegroundHeld s t ∧ Stalled c t := by
  obtain ⟨b, rest, hf⟩ := h.sending
  cases step_next hs with
  | stutter => exact ⟨.refl s, h⟩
  | nothing e es hsched => exact h.holds hsched ⟨rfl, rfl, rfl, rfl, fun _ => rfl⟩ rfl rfl
  | operates e es i t hsched hi he =>
    obtain ⟨-, hfg, hresp, hresponses, hport, hes⟩ := exec_leavesForeground hi he
    obtain ⟨-, -, hch⟩ := exec_configurationSame (ne_configure_of_not_command hi) he
    have hsame (d : Chan) : SameButReceived (s.chan d) (t.chan d) := (hch d).1
    exact h.holds hsched ⟨hfg, hresp, hresponses, hport, fun d => (hsame d).line_eq⟩ (hsame c).txrdy_eq hes
  | arrives es d b hsched =>
    exact h.holds hsched (foregroundHeld_modPer d _ _).of_taken
      (modPer_keeps (fun x => x.per.txrdy) (fun _ => rfl) _) rfl
  | readies es d hsched =>
    have hne : c ≠ d := by
      rintro rfl
      exact h.unscheduled (by rw [hsched]; exact List.mem_cons_self)
    refine h.holds hsched (foregroundHeld_modPer d _ _).of_taken ?_ rfl
    rw [modPer, chan_modChan_ne _ _ hne, chan_sched_update]
  | transmits es d b' rest' _ hf' htx =>
    rw [hf] at hf'; cases hf'
    rw [h.txrdy] at htx; cases htx
  | commands _ _ _ _ _ hf' | illegal _ _ _ _ hf' | timesOut _ _ _ _ hf' | pollSends _ _ _ _ _ hf'
  | polls _ _ _ _ _ hf' | presents _ _ _ hf' => rw [hf] at hf'; cases hf'

theorem run_stalled {k : Nat} (h : Stalled c s) (hrun : Host.Core.run Sys2Proof.core k s = .next t) :
    ForegroundHeld s t := by
  induction k generalizing s with
  | zero => rw [run_zero] at hrun; cases hrun; exact .refl _
  | succ k ih =>
    obtain ⟨u, hstep, hrest⟩ := run_next hrun
    obtain ⟨hheld, hu⟩ := step_stalled h hstep
    exact hheld.trans (ih hu hrest)

end Machine
end Sys2Proof
end

section
open Sys2Proof Sys2Proof.Machine

/-- Settles O22: the precondition fails for each of the seven commands (`exec_command_not_running`), and under the
invariant a pending channel is Running. -/
theorem useBeforeConfigureIsAFault : Obligations.UseBeforeConfigureIsAFault := by
  unfold Obligations.UseBeforeConfigureIsAFault
  refine ⟨fun s i hf hi hne hr => ?_, fun s c h hr => h.rxPending_of_not_running hr⟩
  rw [exec_command_not_running hf hi hne hr, respond_idle hf]

/-- Settles O34: the buffer is what RB.ENQUEUE of the pending byte leaves (`exec_rxDispatch_pending`), which answers where
`N` is not 0. -/
theorem rxDispatchMovesThePendingByte : Obligations.RxDispatchMovesThePendingByte := by
  unfold Obligations.RxDispatchMovesThePendingByte
  intro s c hn hr n x t
  exact ⟨fun hp => exec_rxDispatch_pending hp hr (enqueue_eq_fields (by omega) x.per.rhr x.rb),
    exec_rxDispatch_not_pending⟩

/-- Settles O35: a dispatch clears RXRDY, reset leaves the interrupt disabled, and of the operations only CONFIGURE
touches an enable, which it sets. -/
theorem pendingConditionOfTheReceiveInterrupt : Obligations.PendingConditionOfTheReceiveInterrupt := by
  unfold Obligations.PendingConditionOfTheReceiveInterrupt
  exact ⟨fun s c => rxPending_iff, fun s c h hp => h.running_of_rxPending hp, rxPending_resetWith,
    fun s t c h => rxPending_after_dispatch h,
    fun s t i h => ⟨fun c hier => exec_keeps_ierRxrdy h hier, fun v hv => exec_keeps_intc h hv⟩⟩

/-- Settles O36: an operation that is no command leaves the foreground (`exec_leavesForeground`) and, as it is no
CONFIGURE, the configuration (`exec_configurationSame`). -/
theorem interruptSideLeavesTheForeground : Obligations.InterruptSideLeavesTheForeground := by
  unfold Obligations.InterruptSideLeavesTheForeground
  intro s t i hi h
  obtain ⟨hcfg, hfg, hresp, hresponses, hport, hsched⟩ := exec_leavesForeground hi h
  obtain ⟨hpins, hintc, hch⟩ := exec_configurationSame (ne_configure_of_not_command hi) h
  refine ⟨hfg, hresp, hresponses, hport, hsched, hcfg, hpins, hintc, fun c => ?_⟩
  have hsame : SameButReceived (s.chan c) (t.chan c) := (hch c).1
  exact ⟨hsame.st_eq, hsame.baud_eq, hsame.line_eq⟩

/-- Settles O37: each dispatch answers, the first leaves the other channel pending with the same byte and buffer
(`runOps_two_dispatches`), and the two record updates commute but for the log (`dispatched_comm`). -/
theorem orderOfInterruptsIsUnobservable : Obligations.OrderOfInterruptsIsUnobservable := by
  unfold Obligations.OrderOfInterruptsIsUnobservable
  intro s c d h hne hc hd
  have hn : 0 < s.cfg.n := Nat.zero_lt_of_lt h.two_le_n
  have hrc := h.running_of_rxPending hc
  have hrd := h.running_of_rxPending hd
  have hec := enqueue_eq hn (s.chan c).per.rhr (s.chan c).rb
  have hed := enqueue_eq hn (s.chan d).per.rhr (s.chan d).rb
  exact ⟨_, _, runOps_two_dispatches hne.symm hc hd hrc hrd hec hed,
    runOps_two_dispatches hne hd hc hrd hrc hed hec, dispatched_comm hne⟩

/-- Settles O49: a step that adds a response has the cause the table gives its status (`step_cause`). -/
theorem faultsComeFromTheirCauses : Obligations.FaultsComeFromTheirCauses := by
  unfold Obligations.FaultsComeFromTheirCauses
  intro s t h hresp
  have hcause := (step_cause h).resolve_left hresp
  have hof (st : Status) (hst : t.resp.status = st) : StepCause s st := hst ▸ hcause
  exact ⟨hof .emptyQueue, hof .notConfigured, hof .alreadyConfigured, hof .illegalCommand, hof .txTimeout⟩

/-- Settles O55: R15 keeps every index inside its store, so each operation answers (`exec_goes_on`), and with it each
event. -/
theorem stepNeverStops : Obligations.StepNeverStops := by
  unfold Obligations.StepNeverStops
  exact fun s h => step_goes_on h

/-- Settles O58: the stall is kept by every step, which holds the foreground (`step_stalled`), and so by every run. -/
theorem stalledTransmitHangsTheForeground : Obligations.StalledTransmitHangsTheForeground := by
  unfold Obligations.StalledTransmitHangsTheForeground
  intro s t c b rest k hf htx hs hrun
  obtain ⟨hfg, hresp, hresponses, hport, hline⟩ := run_stalled ⟨⟨b, rest, hf⟩, htx, hs⟩ hrun
  exact ⟨hfg, hresp, hresponses, hport, hline⟩

/-- Settles O8: the foreground's step is `runDecoded` of port CMD, and an event of another port is `runPort` of its
word. -/
theorem stepRunsTheDecodedOperation : Obligations.StepRunsTheDecodedOperation := by
  unfold Obligations.StepRunsTheDecodedOperation
  refine ⟨fun s i rest es hf hs hd => ?_, fun s w es hs => ?_, fun s w es hs => ?_, fun s c w i es hs hd => ?_⟩
  · rw [step_fg_idle hf hs, hd]; rfl
  · rw [step_event hs]; exact runPort_ok (w := .irq w) rfl _
  · rw [step_event hs]; exact runPort_ok (w := .prx w) rfl _
  · rw [step_event hs]; exact runPort_ok (w := .rbp c w) hd _

/-- Settles O50, by the six statuses and the three channel states. -/
theorem statusAndStateCodes : Obligations.StatusAndStateCodes := by
  unfold Obligations.StatusAndStateCodes
  refine ⟨by decide, fun st => ?_, fun st st' => ?_, by decide, fun x => ?_, fun x y => ?_⟩
  · cases st <;> decide
  · cases st <;> cases st' <;> decide
  · cases x <;> decide
  · cases x <;> cases y <;> decide

/-- Settles O56: the bytes on port CMD are no whole command (`step_incomplete`), and a dispatch that is not pending has
no step. -/
theorem quiescentStateRests : Obligations.QuiescentStateRests := by
  unfold Obligations.QuiescentStateRests
  rintro s e es ⟨hf, hport, hpending⟩ hs (rfl | ⟨w, rfl⟩)
  · exact step_incomplete hf hs hport
  · rw [step_event hs]
    exact exec_rxDispatch_not_pending (s := { s with sched := es }) (hpending (chanOf w))

end


section
/-! PROOFS. Bytes presented on port CMD, and what holds along every run: the parameters never change (log 1), and the
invariant holds of every state reached. -/

namespace Sys2Proof
namespace Machine

variable {s t : State}

/-! ### The event that presents bytes -/

theorem takeEvent_present_idle (bytes : List Byte) (h : s.fg = .idle) :
    takeEvent (.present bytes) s = .next { s with port := s.port ++ bytes } := by
  rw [takeEvent, presentBytes, h]

theorem takeEvent_present_busy (bytes : List Byte) (h : s.fg ≠ .idle) :
    takeEvent (.present bytes) s = .next s := by
  rw [takeEvent, presentBytes]
  cases hf : s.fg with
  | idle => exact absurd hf h
  | sending | polling => rfl

/-! ### Every run keeps the parameters and the invariant -/

theorem startSending_cfg (c : Chan) (L : List Byte) (s : State) : (startSending c L s).cfg = s.cfg := by
  cases L <;> rfl

theorem step_cfg (h : step s = .next t) : t.cfg = s.cfg := by
  cases step_next h with
  | stutter | nothing | illegal | timesOut | pollSends | polls | arrives | readies | presents => rfl
  | commands es i p t _ _ _ he | operates _ es i t _ _ he =>
    obtain ⟨hcfg, -⟩ := exec_outsideSame he
    exact hcfg
  | transmits es c b rest => exact startSending_cfg c rest _

/-- What every step keeps, every run keeps. -/
theorem run_keeps {P : State → Prop} (hstep : ∀ s t, P s → step s = .next t → P t) {k : Nat} (h : P s)
    (hrun : Host.Core.run Sys2Proof.core k s = .next t) : P t := by
  induction k generalizing s with
  | zero => rw [run_zero] at hrun; cases hrun; exact h
  | succ k ih =>
    obtain ⟨u, hu, hrest⟩ := run_next hrun
    exact ih (hstep s u h hu) hrest

theorem run_keeps_stateInv {k : Nat} (h : StateInv s) (hrun : Host.Core.run Sys2Proof.core k s = .next t) :
    StateInv t :=
  run_keeps (fun _ _ => step_keeps_stateInv) h hrun

theorem run_cfg {k : Nat} (hrun : Host.Core.run Sys2Proof.core k s = .next t) : t.cfg = s.cfg :=
  run_keeps (P := fun u => u.cfg = s.cfg) (fun _ _ hu hs => (step_cfg hs).trans hu) rfl hrun

end Machine
end Sys2Proof
end

section
open Sys2Proof Sys2Proof.Machine

/-- Settles O54: every run keeps the invariant, whose ring buffer clause (10_state.md R15) bounds the indices by the `N`
of the state reached, and keeps `N` itself. -/
theorem indicesStayInRangeAlongEveryRun : Obligations.IndicesStayInRangeAlongEveryRun := by
  unfold Obligations.IndicesStayInRangeAlongEveryRun
  intro s t k h hrun c
  have hwf : (t.chan c).rb.Wf s.cfg.n := run_cfg hrun ▸ (run_keeps_stateInv h hrun).rb_wf c
  obtain ⟨-, -, hhead, htail, hcount, -⟩ := hwf
  exact ⟨Nat.le_sub_one_of_lt hcount, hhead, htail⟩

/-- Settles O9: the event takes bytes only while the foreground is idle (`takeEvent_present_idle` and
`takeEvent_present_busy`). -/
theorem presentedBytesReachThePort : Obligations.PresentedBytesReachThePort := by
  unfold Obligations.PresentedBytesReachThePort
  intro s bytes es hs
  rw [step_event hs]
  exact ⟨takeEvent_present_idle (s := { s with sched := es }) bytes,
    takeEvent_present_busy (s := { s with sched := es }) bytes⟩

end
